-- ==== Sys2Proof/Word.lean ====
section
/-! DEFINITION. The word types of the CHIP-8 core (`00_scope.md` R6, R8, R9): every value is unsigned and bit 0 is the
least significant bit. -/

namespace Sys2Proof

/-- A register's or a memory cell's content: 8 bits, unsigned (R21, R31). -/
abbrev Byte := BitVec 8

/-- 16 bits, unsigned: an instruction word, `PC`, `I`, a stack entry (R23, R24, R25, R70). -/
abbrev Word := BitVec 16

/-- The 12-bit absolute address `nnn` of an instruction word (R72). -/
abbrev Addr12 := BitVec 12

/-- The index of a general register `V0` to `VF` (R21): the fields `x` and `y` of an instruction word (R72). -/
abbrev Reg := Fin 16

/-- The row count `n` of `Dxyn`, 0 to 15 (R72). -/
abbrev Rows := Fin 16

/-- The index of a logical key, 0 to 15 (R41, R175). -/
abbrev Key := Fin 16

/-- The index of `VF`, the register that doubles as the flag (R22). -/
abbrev VF : Reg := 15

/-- The display buffer: pixel `k = row*64 + col` is bit `k` (R32). -/
abbrev Display := BitVec 2048

end Sys2Proof
end

