-- ==== Sys2Proof/Config.lean ====
section
/-! DEFINITION. What is fixed from outside the core: the parameters of reset (`00_scope.md` R7) and the free values of
its three input ports (`10_state.md` R41 to R43). -/

namespace Sys2Proof

/-- What reset/load takes (R7, R240): the load base, the ROM image, and the constants of the instance, the 80 font bytes
and the number of instruction slots of a tick. `ResetParams.wellFormed` says which values are legal. -/
structure ResetParams where
  loadBase : Nat
  rom : List Byte
  font : List Byte
  ipt : Nat
  deriving DecidableEq, Repr

/-- The free value of the port `KEYS_DOWN` at the n-th sampled tick (R41: "any 16-bit pattern may arrive at any tick").
No body: nothing can be proved of it. Read only when `State.keyInputs` lists no sample (log entry 5). -/
opaque Config.freeKeysDown : Nat → BitVec 16

/-- The free value of the port `KEY_EVENT` at the n-th sampled tick (R42: "the core treats the input as free").
No body: nothing can be proved of it. Read only when `State.keyInputs` lists no sample (log entry 5). -/
opaque Config.freeKeyEvent : Nat → Option Key

/-- The free byte of the n-th draw from the port `RND` (R43: "a free input under no law").
No body: nothing can be proved of it. Read only when `State.rndInputs` lists no byte (log entry 6). -/
opaque Config.freeRnd : Nat → Byte

end Sys2Proof
end

