-- ==== Sys2Proof/Syntax.lean ====
section
/-! DEFINITION. The 34 instructions, one constructor per row of the opcode table in its order (`30_encoding.md` R76).
`x` and `y` are register indices, `kk` an 8-bit immediate, `nnn` a 12-bit absolute address, `n` a row count (R72, R73). -/

namespace Sys2Proof

/-- An instruction with its operands (R74). `shr` and `shl` carry no `y`: the words `8xy6` that differ in `y` only are
"all the same instruction" (R77; log entry 11). -/
inductive Instr where
  /-- `00E0` CLS (R166) -/
  | cls
  /-- `00EE` RET (R111) -/
  | ret
  /-- `1nnn` JP nnn (R112) -/
  | jp (nnn : Addr12)
  /-- `2nnn` CALL nnn (R113) -/
  | call (nnn : Addr12)
  /-- `3xkk` SE Vx, kk (R121) -/
  | seImm (x : Reg) (kk : Byte)
  /-- `4xkk` SNE Vx, kk (R122) -/
  | sneImm (x : Reg) (kk : Byte)
  /-- `5xy0` SE Vx, Vy (R123) -/
  | seReg (x y : Reg)
  /-- `6xkk` LD Vx, kk (R132) -/
  | ldImm (x : Reg) (kk : Byte)
  /-- `7xkk` ADD Vx, kk (R133) -/
  | addImm (x : Reg) (kk : Byte)
  /-- `8xy0` LD Vx, Vy (R134) -/
  | ldReg (x y : Reg)
  /-- `8xy1` OR Vx, Vy (R135) -/
  | orReg (x y : Reg)
  /-- `8xy2` AND Vx, Vy (R136) -/
  | andReg (x y : Reg)
  /-- `8xy3` XOR Vx, Vy (R137) -/
  | xorReg (x y : Reg)
  /-- `8xy4` ADD Vx, Vy (R138) -/
  | addReg (x y : Reg)
  /-- `8xy5` SUB Vx, Vy (R139) -/
  | subReg (x y : Reg)
  /-- `8xy6` SHR Vx (R140) -/
  | shr (x : Reg)
  /-- `8xy7` SUBN Vx, Vy (R141) -/
  | subnReg (x y : Reg)
  /-- `8xyE` SHL Vx (R142) -/
  | shl (x : Reg)
  /-- `9xy0` SNE Vx, Vy (R124) -/
  | sneReg (x y : Reg)
  /-- `Annn` LD I, nnn (R151) -/
  | ldI (nnn : Addr12)
  /-- `Bnnn` JP V0, nnn (R114) -/
  | jpV0 (nnn : Addr12)
  /-- `Cxkk` RND Vx, kk (R189) -/
  | rnd (x : Reg) (kk : Byte)
  /-- `Dxyn` DRW Vx, Vy, n (R167) -/
  | drw (x y : Reg) (n : Rows)
  /-- `Ex9E` SKP Vx (R176) -/
  | skp (x : Reg)
  /-- `ExA1` SKNP Vx (R177) -/
  | sknp (x : Reg)
  /-- `Fx07` LD Vx, DT (R186) -/
  | ldVxDt (x : Reg)
  /-- `Fx0A` LD Vx, K (R178) -/
  | ldVxK (x : Reg)
  /-- `Fx15` LD DT, Vx (R187) -/
  | ldDtVx (x : Reg)
  /-- `Fx18` LD ST, Vx (R188) -/
  | ldStVx (x : Reg)
  /-- `Fx1E` ADD I, Vx (R152) -/
  | addIVx (x : Reg)
  /-- `Fx29` LD F, Vx (R153) -/
  | ldFVx (x : Reg)
  /-- `Fx33` LD B, Vx (R154) -/
  | ldBVx (x : Reg)
  /-- `Fx55` LD [I], Vx (R156) -/
  | ldMemVx (x : Reg)
  /-- `Fx65` LD Vx, [I] (R157) -/
  | ldVxMem (x : Reg)
  deriving DecidableEq, Repr

end Sys2Proof
end

