-- ==== Sys2Proof/WellFormed.lean ====
section
/-! DEFINITION. Which terms are well-formed. The operands of an instruction are typed by their fields' widths (R72), so
every `Instr` is well-formed; what can be ill-formed is the parameters of a reset (R7, R242). -/

namespace Sys2Proof

/-- `x` and `y` name one of the registers `V0` to `VF` (R72). -/
def Reg.inRange (x : Reg) : Bool := decide (x.val ≤ 15)

/-- `n` is a row count 0 to 15 (R72). -/
def Rows.inRange (n : Rows) : Bool := decide (n.val ≤ 15)

/-- `kk` is an immediate 0 to 255 (R72). -/
def Byte.inRange (kk : Byte) : Bool := decide (kk.toNat ≤ 255)

/-- `nnn` is an address 0 to 4095 (R72). -/
def Addr12.inRange (nnn : Addr12) : Bool := decide (nnn.toNat ≤ 4095)

/-- Every operand lies in the range R72 gives its field. The types carry these bounds, so the check passes for every term
(`Instr.wellFormed_eq_true` in Laws/Decode.lean): no ill-formed `Instr` can be built. -/
def Instr.wellFormed : Instr → Bool
  | .cls | .ret => true
  | .jp nnn | .call nnn | .ldI nnn | .jpV0 nnn => Addr12.inRange nnn
  | .seImm x kk | .sneImm x kk | .ldImm x kk | .addImm x kk | .rnd x kk => Reg.inRange x && Byte.inRange kk
  | .seReg x y | .sneReg x y | .ldReg x y | .orReg x y | .andReg x y | .xorReg x y | .addReg x y | .subReg x y
  | .subnReg x y => Reg.inRange x && Reg.inRange y
  | .drw x y n => Reg.inRange x && Reg.inRange y && Rows.inRange n
  | .shr x | .shl x | .skp x | .sknp x | .ldVxDt x | .ldVxK x | .ldDtVx x | .ldStVx x | .addIVx x | .ldFVx x | .ldBVx x
  | .ldMemVx x | .ldVxMem x => Reg.inRange x

/-- The load base is one of the two the source names (R7, R244; decision D1). -/
def ResetParams.baseOk (p : ResetParams) : Bool := p.loadBase == 0x200 || p.loadBase == 0x600

/-- The ROM fits between the load base and the top of memory (R225, R242). -/
def ResetParams.romFits (p : ResetParams) : Bool := decide (p.rom.length ≤ 4096 - p.loadBase)

/-- The font is 80 bytes, 16 glyphs of 5 bytes (R6, R33). -/
def ResetParams.fontOk (p : ResetParams) : Bool := p.font.length == 80

/-- At least one instruction slot a tick (R7). -/
def ResetParams.iptOk (p : ResetParams) : Bool := decide (1 ≤ p.ipt)

/-- The parameters a reset accepts (R7). -/
def ResetParams.wellFormed (p : ResetParams) : Bool := p.baseOk && p.romFits && p.fontOk && p.iptOk

end Sys2Proof
end

