-- ==== Sys2Proof/Decode.lean ====
section
/-! DEFINITION. Instruction encoding (`30_encoding.md`): the fields of a word, the opcode table, the decoder, and after
it the encoder. -/

namespace Sys2Proof

/-! ## Fields (R72), the same for every word whatever its format -/

/-- `op` (family) = `w[15:12]`. -/
def fieldOp (w : Word) : BitVec 4 := w.extractLsb' 12 4

/-- `x` = `w[11:8]`, a register index. -/
def fieldX (w : Word) : Reg := (w.extractLsb' 8 4).toFin

/-- `y` = `w[7:4]`, a register index. -/
def fieldY (w : Word) : Reg := (w.extractLsb' 4 4).toFin

/-- `n` = `w[3:0]`, a small count. -/
def fieldN (w : Word) : Rows := (w.extractLsb' 0 4).toFin

/-- `kk` = `w[7:0]`, an immediate. -/
def fieldKk (w : Word) : Byte := w.extractLsb' 0 8

/-- `nnn` = `w[11:0]`, an absolute address. -/
def fieldNnn (w : Word) : Addr12 := w.extractLsb' 0 12

/-! ## The opcode table (R76) -/

/-- A row of the table: the bits it fixes, their values, and the instruction with its fields (R74). -/
structure OpcodeRow where
  pattern : Word
  mask : Word
  build : Word → Instr

/-- "A word decodes to the instruction of a row iff `(w & mask) == match` for that row" (R74). -/
def OpcodeRow.fits (r : OpcodeRow) (w : Word) : Bool := w &&& r.mask == r.pattern

/-- Rows 1 to 9 of R76: families 0 to 7. -/
def opcodeRows0to7 : List OpcodeRow := [
  ⟨0x00E0, 0xFFFF, fun _ => .cls⟩,
  ⟨0x00EE, 0xFFFF, fun _ => .ret⟩,
  ⟨0x1000, 0xF000, fun w => .jp (fieldNnn w)⟩,
  ⟨0x2000, 0xF000, fun w => .call (fieldNnn w)⟩,
  ⟨0x3000, 0xF000, fun w => .seImm (fieldX w) (fieldKk w)⟩,
  ⟨0x4000, 0xF000, fun w => .sneImm (fieldX w) (fieldKk w)⟩,
  ⟨0x5000, 0xF00F, fun w => .seReg (fieldX w) (fieldY w)⟩,
  ⟨0x6000, 0xF000, fun w => .ldImm (fieldX w) (fieldKk w)⟩,
  ⟨0x7000, 0xF000, fun w => .addImm (fieldX w) (fieldKk w)⟩]

/-- Rows 10 to 18 of R76: family 8. -/
def opcodeRows8 : List OpcodeRow := [
  ⟨0x8000, 0xF00F, fun w => .ldReg (fieldX w) (fieldY w)⟩,
  ⟨0x8001, 0xF00F, fun w => .orReg (fieldX w) (fieldY w)⟩,
  ⟨0x8002, 0xF00F, fun w => .andReg (fieldX w) (fieldY w)⟩,
  ⟨0x8003, 0xF00F, fun w => .xorReg (fieldX w) (fieldY w)⟩,
  ⟨0x8004, 0xF00F, fun w => .addReg (fieldX w) (fieldY w)⟩,
  ⟨0x8005, 0xF00F, fun w => .subReg (fieldX w) (fieldY w)⟩,
  ⟨0x8006, 0xF00F, fun w => .shr (fieldX w)⟩,
  ⟨0x8007, 0xF00F, fun w => .subnReg (fieldX w) (fieldY w)⟩,
  ⟨0x800E, 0xF00F, fun w => .shl (fieldX w)⟩]

/-- Rows 19 to 25 of R76: families 9 to E. -/
def opcodeRows9toE : List OpcodeRow := [
  ⟨0x9000, 0xF00F, fun w => .sneReg (fieldX w) (fieldY w)⟩,
  ⟨0xA000, 0xF000, fun w => .ldI (fieldNnn w)⟩,
  ⟨0xB000, 0xF000, fun w => .jpV0 (fieldNnn w)⟩,
  ⟨0xC000, 0xF000, fun w => .rnd (fieldX w) (fieldKk w)⟩,
  ⟨0xD000, 0xF000, fun w => .drw (fieldX w) (fieldY w) (fieldN w)⟩,
  ⟨0xE09E, 0xF0FF, fun w => .skp (fieldX w)⟩,
  ⟨0xE0A1, 0xF0FF, fun w => .sknp (fieldX w)⟩]

/-- Rows 26 to 34 of R76: family F. -/
def opcodeRowsF : List OpcodeRow := [
  ⟨0xF007, 0xF0FF, fun w => .ldVxDt (fieldX w)⟩,
  ⟨0xF00A, 0xF0FF, fun w => .ldVxK (fieldX w)⟩,
  ⟨0xF015, 0xF0FF, fun w => .ldDtVx (fieldX w)⟩,
  ⟨0xF018, 0xF0FF, fun w => .ldStVx (fieldX w)⟩,
  ⟨0xF01E, 0xF0FF, fun w => .addIVx (fieldX w)⟩,
  ⟨0xF029, 0xF0FF, fun w => .ldFVx (fieldX w)⟩,
  ⟨0xF033, 0xF0FF, fun w => .ldBVx (fieldX w)⟩,
  ⟨0xF055, 0xF0FF, fun w => .ldMemVx (fieldX w)⟩,
  ⟨0xF065, 0xF0FF, fun w => .ldVxMem (fieldX w)⟩]

/-- The complete opcode table, in the order of R76. -/
def opcodeTable : List OpcodeRow := opcodeRows0to7 ++ opcodeRows8 ++ opcodeRows9toE ++ opcodeRowsF

/-! ## The decoder -/

/-- Why bytes are no instruction. -/
inductive DecodeReject where
  /-- The word matches no row of the table (R78). -/
  | illegal (w : Word)
  /-- Fewer bytes than the two of an instruction word (R70). -/
  | truncated
  deriving DecidableEq, Repr

/-- `Decode(w)` (R74): total on the 65536 words; a word that matches no row is illegal (R78). -/
def decode (w : Word) : Except DecodeReject Instr :=
  match opcodeTable.find? (·.fits w) with
  | some r => .ok (r.build w)
  | none => .error (.illegal w)

/-- The instruction word of two consecutive bytes, the byte at the lower address the high one (R51, R52). -/
def wordOfBytes (hi lo : Byte) : Word := hi ++ lo

/-- Decoding bytes in memory order: one instruction word and the bytes after it (R70). -/
def decodeBytes : List Byte → Except DecodeReject (Instr × List Byte)
  | hi :: lo :: rest => (decode (wordOfBytes hi lo)).map fun i => (i, rest)
  | _ => .error .truncated

/-! ## The encoder, from the "Encoding" line of each instruction's rule -/

/-- Format `A`: opcode and `nnn` (R71). -/
def wordA (op : Word) (nnn : Addr12) : Word := op ||| nnn.setWidth 16

/-- Format `XK`: opcode, `x` and `kk` (R71). -/
def wordXK (op : Word) (x : Reg) (kk : Byte) : Word :=
  op ||| ((BitVec.ofFin x : BitVec 4).setWidth 16 <<< 8) ||| kk.setWidth 16

/-- Formats `XY` and `X`: opcode and function bits, `x`, and `y` where there is one (R71). -/
def wordXY (op : Word) (x y : Reg) : Word :=
  op ||| ((BitVec.ofFin x : BitVec 4).setWidth 16 <<< 8) ||| ((BitVec.ofFin y : BitVec 4).setWidth 16 <<< 4)

/-- Format `X`: opcode and function bits, and `x` (R71). -/
def wordX (op : Word) (x : Reg) : Word := op ||| ((BitVec.ofFin x : BitVec 4).setWidth 16 <<< 8)

/-- Format `XYN`: opcode, `x`, `y` and `n` (R71). -/
def wordXYN (op : Word) (x y : Reg) (n : Rows) : Word :=
  op ||| ((BitVec.ofFin x : BitVec 4).setWidth 16 <<< 8) ||| ((BitVec.ofFin y : BitVec 4).setWidth 16 <<< 4)
    ||| (BitVec.ofFin n : BitVec 4).setWidth 16

/-- The word of an instruction. `SHR Vx` and `SHL Vx` take `y = 0` (R81; decision D27; log entry 11). -/
def encode : Instr → Word
  | .cls => 0x00E0
  | .ret => 0x00EE
  | .jp nnn => wordA 0x1000 nnn
  | .call nnn => wordA 0x2000 nnn
  | .seImm x kk => wordXK 0x3000 x kk
  | .sneImm x kk => wordXK 0x4000 x kk
  | .seReg x y => wordXY 0x5000 x y
  | .ldImm x kk => wordXK 0x6000 x kk
  | .addImm x kk => wordXK 0x7000 x kk
  | .ldReg x y => wordXY 0x8000 x y
  | .orReg x y => wordXY 0x8001 x y
  | .andReg x y => wordXY 0x8002 x y
  | .xorReg x y => wordXY 0x8003 x y
  | .addReg x y => wordXY 0x8004 x y
  | .subReg x y => wordXY 0x8005 x y
  | .shr x => wordX 0x8006 x
  | .subnReg x y => wordXY 0x8007 x y
  | .shl x => wordX 0x800E x
  | .sneReg x y => wordXY 0x9000 x y
  | .ldI nnn => wordA 0xA000 nnn
  | .jpV0 nnn => wordA 0xB000 nnn
  | .rnd x kk => wordXK 0xC000 x kk
  | .drw x y n => wordXYN 0xD000 x y n
  | .skp x => wordX 0xE09E x
  | .sknp x => wordX 0xE0A1 x
  | .ldVxDt x => wordX 0xF007 x
  | .ldVxK x => wordX 0xF00A x
  | .ldDtVx x => wordX 0xF015 x
  | .ldStVx x => wordX 0xF018 x
  | .addIVx x => wordX 0xF01E x
  | .ldFVx x => wordX 0xF029 x
  | .ldBVx x => wordX 0xF033 x
  | .ldMemVx x => wordX 0xF055 x
  | .ldVxMem x => wordX 0xF065 x

/-- The bytes of an instruction in memory order, high byte first (R70). -/
def encodeBytes (i : Instr) : List Byte := [(encode i).extractLsb' 8 8, (encode i).extractLsb' 0 8]

/-! ## The opcode table's numbering of an instruction's bits -/

/-- The two bytes of the instruction whose bits, as the opcode table numbers them, are `w`: bit 0 is bit 0 of the one
word, every bit above `nbits` is 0, and the word is stored high byte first (R51, R70). -/
def tableWordBytes (nbits w : Nat) : List Byte :=
  let word : Word := BitVec.ofNat 16 (w % 2 ^ nbits)
  [word.extractLsb' 8 8, word.extractLsb' 0 8]

/-- What the decoder reads from the instruction whose bits are `w`. -/
def decodeTableWord (nbits w : Nat) : Option Instr :=
  match decodeBytes (tableWordBytes nbits w) with
  | .ok (i, _) => some i
  | .error _ => none

end Sys2Proof
end

