-- ==== Sys2Proof/Machine/State.lean ====
section
/-! DEFINITION. The architectural state of the core (`10_state.md` R20), the faults it raises, and its reset value. -/

namespace Sys2Proof.Machine

/-- The run state `RS` (R29). -/
inductive RunState where
  /-- The next slot fetches and executes normally. -/
  | running
  /-- The instruction at `PC` is an `Fx0A` that waits for a key event. -/
  | awaitingKey
  /-- A fault has been raised; nothing changes until reset. -/
  | halted
  deriving DecidableEq, Repr

/-- The faults of the core (`60_exceptions.md` R201). The core TAKES every one of them: `raise` (Ops.lean, R203) answers
a next state that is halted and holds the fault's record, so no step of this model ends in `Outcome.fault` (log entry 8).
Each is safe: the spec gives the state it leaves. -/
inductive Fault where
  /-- Raised by the decode stage, for a word that matches no row of the opcode table (R205). Safe: taken. -/
  | illegalInstruction (w : Word)
  /-- Raised by `2nnn` with sixteen entries on the stack (R207). Safe: taken. -/
  | stackOverflow
  /-- Raised by `00EE` with an empty stack (R208). Safe: taken. -/
  | stackUnderflow
  /-- Raised by the fetch stage when `PC` is odd (R204). Safe: taken. -/
  | pcMisaligned (pc : Word)
  /-- Raised by the fetch stage when `PC` is even and above `0xFFE` (R206). Safe: taken. -/
  | pcOutOfRange (pc : Word)
  /-- Raised by `Dxyn`, `Fx33`, `Fx55`, `Fx65` when a byte they would access lies above `0xFFF` (R209). Safe: taken. -/
  | dataAddressError (addr : Nat)
  /-- Raised by `Fx1E` when `I + Vx > 0xFFF` (R210). Safe: taken. -/
  | indexOutOfRange (sum : Nat)
  /-- Raised by `Ex9E` and `ExA1` when `Vx > 15` (R211). Safe: taken. -/
  | keyIndexError (vx : Byte)
  deriving DecidableEq, Repr

/-- The reasons no state is produced. No step of a complete model gives one. -/
inductive Refusal where
  /-- An instruction without a meaning yet: raised by exec's arm. Safe. No arm raises it. -/
  | notModelled (mnemonic : String)
  /-- Raised by reset/load when the ROM is longer than `4096 - LOAD_BASE`: "no initial state is produced and the core
  does not start" (R225, R242). Safe: the spec's own refusal. -/
  | romTooLarge
  /-- Raised by reset/load for a load base other than `0x200` and `0x600`, a font that is not 80 bytes, or no
  instruction slot (R7 gives the legal values). Safe. -/
  | illegalParameter
  deriving DecidableEq, Repr

/-- The memory (R31): the cells that differ from what an unlisted address reads as, by strictly rising address. -/
abbrev Memory := List Host.Cell

/-- One tick's sample of the two key inputs (R41, R42, R101). -/
structure KeySample where
  /-- `KEYS_DOWN`: bit `k` is 1 while key `k` is held down. -/
  keysDown : BitVec 16
  /-- `KEY_EVENT`: the key that was just pressed, if any. -/
  keyEvent : Option Key
  deriving DecidableEq, Repr

/-- The architectural state (R20), and after it the model's own fields: the constant `IPT` of the instance and the
values that arrive at the input ports (R34 calls these "inputs or parameters of the transitions, not state"). -/
structure State where
  /-- `V[0..15]` (R21). -/
  v : Vector Byte 16
  /-- `PC` (R23). -/
  pc : Word
  /-- `I` (R24). -/
  i : Word
  /-- `STACK[0..15]` (R25). -/
  stack : Vector Word 16
  /-- `SP`, the number of live entries, 0 to 16 (R26; log entry 9). -/
  sp : Fin 17
  /-- `DT` (R27). -/
  dt : Byte
  /-- `ST` (R28). -/
  st : Byte
  /-- `RS` (R29). -/
  rs : RunState
  /-- `FCAUSE` (R30). -/
  fcause : BitVec 4
  /-- `FINFO` (R30). -/
  finfo : Word
  /-- `MEM[0..4095]` (R31). -/
  mem : Memory
  /-- `DISP[0..2047]` (R32). -/
  disp : Display
  /-- The model's own: the constant `IPT`, instruction slots per tick (R7, R102; log entry 4). -/
  ipt : Nat
  /-- The model's own: the value of `KEYS_DOWN` sampled at the start of the current tick (R41, R101). -/
  keysDown : BitVec 16
  /-- The model's own: the value of `KEY_EVENT` sampled at the start of the current tick (R42, R101). -/
  keyEvent : Option Key
  /-- The model's own: the samples the host will give the next ticks, the next one first (log entry 5). -/
  keyInputs : List KeySample
  /-- The model's own: how many ticks have sampled their inputs; indexes the free samples (log entry 5). -/
  ticks : Nat
  /-- The model's own: the bytes the next draws of `RND` will yield, the next one first (log entry 6). -/
  rndInputs : List Byte
  /-- The model's own: how many bytes have been drawn; indexes the free bytes (log entry 6). -/
  draws : Nat
  deriving DecidableEq, Repr

/-- The state right after reset (R36, R241, R243) with the parameters' defaults (R7): `LOAD_BASE = 0x200`, an empty ROM,
the default `FONT`, `IPT = 1`. Memory lists nothing: an unlisted address reads as the reset contents
(`Memory.unlisted`). `State.resetWith` (Reset.lean) is reset with any parameters. -/
def State.reset : State where
  v := Vector.replicate 16 0
  pc := 0x200
  i := 0
  stack := Vector.replicate 16 0
  sp := 0
  dt := 0
  st := 0
  rs := .running
  fcause := 0
  finfo := 0
  mem := []
  disp := 0
  ipt := 1
  keysDown := 0
  keyEvent := none
  keyInputs := []
  ticks := 0
  rndInputs := []
  draws := 0

end Sys2Proof.Machine
end

