-- ==== Sys2Proof/Machine/Ops.lean ====
section
/-! DEFINITION. The named operations over memory, registers, stack, display, timers and input ports, and taking a
fault. Every meaning is written over these. -/

namespace Sys2Proof.Machine

/-! ## Memory (`20_memory.md` R50 to R60) -/

/-- The default of the parameter `FONT`: 16 glyphs of 5 bytes (`10_state.md` R33, decision D2; the byte values are
PRESUMED, general knowledge by the spec's own mark: log entry 2). -/
def defaultFont : List Byte :=
  [0xF0, 0x90, 0x90, 0x90, 0xF0] ++ [0x20, 0x60, 0x20, 0x20, 0x70] ++
  [0xF0, 0x10, 0xF0, 0x80, 0xF0] ++ [0xF0, 0x10, 0xF0, 0x10, 0xF0] ++
  [0x90, 0x90, 0xF0, 0x10, 0x10] ++ [0xF0, 0x80, 0xF0, 0x10, 0xF0] ++
  [0xF0, 0x80, 0xF0, 0x90, 0xF0] ++ [0xF0, 0x10, 0x20, 0x40, 0x40] ++
  [0xF0, 0x90, 0xF0, 0x90, 0xF0] ++ [0xF0, 0x90, 0xF0, 0x10, 0xF0] ++
  [0xF0, 0x90, 0xF0, 0x90, 0x90] ++ [0xE0, 0x90, 0xE0, 0x90, 0xE0] ++
  [0xF0, 0x80, 0x80, 0x80, 0xF0] ++ [0xE0, 0x90, 0x90, 0x90, 0xE0] ++
  [0xF0, 0x80, 0xF0, 0x80, 0xF0] ++ [0xF0, 0x80, 0xF0, 0x80, 0x80]

/-- What an address that the memory's list leaves out reads as: the reset contents, the font at `0x000` to `0x04F` and
zero above it (R50, `10_state.md` R36). -/
def Memory.unlisted (a : Nat) : Byte := defaultFont.getD a 0

/-- The byte at an address. -/
def Memory.read : Memory → Nat → Byte
  | [], a => Memory.unlisted a
  | (b, w) :: rest, a => if a = b then w else Memory.read rest a

/-- A cell in front of a list, unless it holds what an unlisted address reads as. -/
def Memory.cons (a : Nat) (w : Byte) (rest : Memory) : Memory :=
  if w = Memory.unlisted a then rest else (a, w) :: rest

/-- Writing one byte changes that byte only (R60) and keeps the canonical form. -/
def Memory.write : Memory → Nat → Byte → Memory
  | [], a, w => Memory.cons a w []
  | (b, u) :: rest, a, w =>
    if a < b then Memory.cons a w ((b, u) :: rest)
    else if a = b then Memory.cons a w rest
    else (b, u) :: Memory.write rest a w

/-- Writing bytes at consecutive rising addresses. -/
def Memory.writeBytes : Memory → Nat → List Byte → Memory
  | m, _, [] => m
  | m, a, w :: ws => Memory.writeBytes (m.write a w) (a + 1) ws

/-- The `n` bytes from an address on. -/
def Memory.readBytes (m : Memory) (a n : Nat) : List Byte := (List.range n).map fun k => m.read (a + k)

/-- The canonical form, read from a lower bound on: strictly rising addresses of the address space (R31), no cell equal
to what an unlisted address reads as. -/
def Memory.wfFrom (lo : Nat) : Memory → Bool
  | [] => true
  | (a, w) :: rest => decide (lo ≤ a ∧ a < 4096 ∧ w ≠ Memory.unlisted a) && Memory.wfFrom (a + 1) rest

/-- The memory is in canonical form. -/
def Memory.wf (m : Memory) : Bool := Memory.wfFrom 0 m

/-- `Fetch16(a)`: the big-endian word at `a` (R51, R52). -/
def Memory.fetch16 (m : Memory) (a : Nat) : Word := m.read a ++ m.read (a + 1)

namespace State

/-! ## Registers -/

/-- Read of `V[x]` (`00_scope.md` R11). -/
def reg (s : State) (x : Reg) : Byte := s.v[x]

/-- `V[x] <- b` (R11). No register is hardwired (R21). -/
def setReg (s : State) (x : Reg) (b : Byte) : State := { s with v := s.v.set x b }

/-- All sixteen registers at once, for the block load. -/
def setRegs (s : State) (v : Vector Byte 16) : State := { s with v := v }

/-- `PC <- target`, unchecked and unmasked (R23, `40_cycle.md` R98). -/
def setPc (s : State) (target : Word) : State := { s with pc := target }

/-- `PC <- pc0 + 2`, modulo 65536 (`40_cycle.md` R96). -/
def advance (s : State) : State := s.setPc (s.pc + 2)

/-- `PC <- (taken ? pc0 + 4 : pc0 + 2)` (`40_cycle.md` R96, R97). -/
def skipIf (s : State) (taken : Bool) : State := s.setPc (if taken then s.pc + 4 else s.pc + 2)

/-- `I <- a` (R24). -/
def setI (s : State) (a : Word) : State := { s with i := a }

/-- `DT <- b` (R27). -/
def setDt (s : State) (b : Byte) : State := { s with dt := b }

/-- `ST <- b` (R28). -/
def setSt (s : State) (b : Byte) : State := { s with st := b }

/-- `RS <- r` (R29). -/
def setRs (s : State) (r : RunState) : State := { s with rs := r }

/-- The memory after the stores of an instruction. -/
def setMem (s : State) (m : Memory) : State := { s with mem := m }

/-- The display buffer after a clear or a draw (R32). -/
def setDisp (s : State) (d : Display) : State := { s with disp := d }

/-! ## The stack (R25, R26) -/

/-- A push: `STACK[SP] <- ra; SP <- SP + 1`; with sixteen entries nothing (the caller raises `StackOverflow`). -/
def push (s : State) (ra : Word) : State :=
  if h : s.sp.val < 16 then { s with stack := s.stack.set s.sp.val ra, sp := ⟨s.sp.val + 1, by omega⟩ } else s

/-- The entry most recently pushed, `STACK[SP-1]`. -/
def top (s : State) : Word := s.stack[s.sp.val - 1]'(by have := s.sp.isLt; omega)

/-- A pop: `SP <- SP - 1`; the entry it read keeps its value (R25). -/
def drop (s : State) : State := { s with sp := ⟨s.sp.val - 1, by have := s.sp.isLt; omega⟩ }

end State

/-! ## Faults (`60_exceptions.md`) -/

/-- The code of a fault (R201). -/
def Fault.code : Fault → BitVec 4
  | .illegalInstruction _ => 1
  | .stackOverflow => 2
  | .stackUnderflow => 3
  | .pcMisaligned _ => 4
  | .pcOutOfRange _ => 5
  | .dataAddressError _ => 6
  | .indexOutOfRange _ => 7
  | .keyIndexError _ => 8

/-- The information of a fault, before it is reduced to 16 bits (R201). -/
def Fault.info : Fault → Nat
  | .illegalInstruction w => w.toNat
  | .stackOverflow => 16
  | .stackUnderflow => 0
  | .pcMisaligned pc => pc.toNat
  | .pcOutOfRange pc => pc.toNat
  | .dataAddressError addr => addr
  | .indexOutOfRange sum => sum
  | .keyIndexError vx => vx.toNat

namespace State

/-- `raise F(info)` (R203): exactly three writes, `RS <- Halted; FCAUSE <- code(F); FINFO <- info mod 65536`; `PC` keeps
the address of the faulting instruction. There is no handler, and no instruction returns from a fault (R214): the one
exit from `Halted` is reset. -/
def raise (s : State) (f : Fault) : State :=
  { s with rs := .halted, fcause := f.code, finfo := BitVec.ofNat 16 f.info }

/-- An instruction's checks come before its writes: it raises its fault and performs none of them, or completes and
performs all (`40_cycle.md` R95, `60_exceptions.md` R215). -/
def unlessFault (s : State) (check : Option Fault) (completed : State) : State :=
  match check with
  | some f => s.raise f
  | none => completed

/-! ## Timers -/

/-- `TimerStep` (`40_cycle.md` R99): each timer counts down by one, floored at 0. -/
def timerStep (s : State) : State :=
  { s with dt := if s.dt = 0 then 0 else s.dt - 1, st := if s.st = 0 then 0 else s.st - 1 }

/-! ## Input ports -/

/-- The sample the two key inputs give the coming tick: the first one listed, or a free one (R41, R42; log entry 5). -/
def nextKeySample (s : State) : KeySample :=
  match s.keyInputs with
  | k :: _ => k
  | [] => ⟨Config.freeKeysDown s.ticks, Config.freeKeyEvent s.ticks⟩

/-- Sampling the key inputs once at the start of a tick (`40_cycle.md` R101). -/
def sampleKeys (s : State) : State :=
  { s with
    keysDown := s.nextKeySample.keysDown
    keyEvent := s.nextKeySample.keyEvent
    keyInputs := s.keyInputs.tail
    ticks := s.ticks + 1 }

/-- `rnd()`: the byte the next draw yields, the first one listed, or a free one (R43; log entry 6). -/
def nextRnd (s : State) : Byte :=
  match s.rndInputs with
  | r :: _ => r
  | [] => Config.freeRnd s.draws

/-- One draw is consumed (`47_timers_random.md` R189). -/
def consumeRnd (s : State) : State := { s with rndInputs := s.rndInputs.tail, draws := s.draws + 1 }

/-! ## Output ports (R40, R44, R45), observed between ticks -/

/-- Pixel `(row, col)` of the display read port (R32, R44). -/
def pixel (s : State) (row col : Nat) : Bool := s.disp.getLsbD (row * 64 + col)

/-- `TONE = (ST != 0)` (R45). -/
def tone (s : State) : Bool := s.st != 0

/-- The status outputs `RS`, `FCAUSE`, `FINFO`, `PC` (R45). -/
def status (s : State) : RunState × BitVec 4 × Word × Word := (s.rs, s.fcause, s.finfo, s.pc)

end State

/-! ## The display buffer (`45_display.md`) -/

/-- One sprite bit at column `px`, row `py` (R167 to R169): a pixel outside the 64 x 32 grid is dropped; a sprite bit of 1
flips the pixel, and latches the collision when the pixel was 1. -/
def drawPixel (px py : Nat) (bit : Bool) (acc : Display × Bool) : Display × Bool :=
  if 64 ≤ px ∨ 32 ≤ py then acc
  else if bit then (acc.1 ^^^ BitVec.twoPow 2048 (py * 64 + px), acc.2 || acc.1.getLsbD (py * 64 + px))
  else acc

/-- One sprite row `b` with its left end at column `vx`: `bit(col) = b[7 - col]` (R170; log entry 10). -/
def drawRow (vx py : Nat) (b : Byte) (acc : Display × Bool) : Display × Bool :=
  (List.range 8).foldl (fun acc col => drawPixel (vx + col) py (b.getLsbD (7 - col)) acc) acc

/-- The sprite's rows, top to bottom, from row `vy` on (R167). -/
def drawSprite (vx : Nat) : Nat → List Byte → Display × Bool → Display × Bool
  | _, [], acc => acc
  | vy, b :: rows, acc => drawSprite vx (vy + 1) rows (drawRow vx vy b acc)

/-! ## Chaining the parts of a step -/

/-- The next part of a step, unless the part before it ended the step in a fault or a refusal. -/
def andThen (o : Host.Outcome State Fault Refusal) (k : State → Host.Outcome State Fault Refusal) :
    Host.Outcome State Fault Refusal :=
  match o with
  | .next s => k s
  | .fault f => .fault f
  | .refused r => .refused r

end Sys2Proof.Machine
end

