-- ==== Sys2Proof/Machine/Flags.lean ====
section
/-! DEFINITION. The flag computations: every value an instruction writes to `VF` as a side effect (`10_state.md` R22), and
the results that go with them. Operands are 8-bit unsigned and computed with exactly before they are narrowed
(`00_scope.md` R10). -/

namespace Sys2Proof.Machine

/-- The value 0 or 1 of a flag (R22). -/
def flagByte (b : Bool) : Byte := if b then 1 else 0

/-- `8xy4`: 1 if the sum exceeds 255 (R138). -/
def carryFlag (vx vy : Byte) : Byte := flagByte (decide (255 < vx.toNat + vy.toNat))

/-- `8xy5`, `8xy7`: 1 if the minuend is strictly greater than the subtrahend, 0 when they are equal (R139, R141). -/
def greaterFlag (minuend subtrahend : Byte) : Byte := flagByte (decide (subtrahend.toNat < minuend.toNat))

/-- `8xy6`: bit 0 of the operand (R140). -/
def lowBitFlag (vx : Byte) : Byte := vx &&& 1

/-- `8xyE`: bit 7 of the operand (R142). -/
def highBitFlag (vx : Byte) : Byte := (vx >>> 7) &&& 1

/-- `Dxyn`: 1 if a pixel was erased (R168). -/
def collisionFlag (erased : Bool) : Byte := flagByte erased

/-- `7xkk`, `8xy4`: the sum modulo 256 (R133, R138). -/
def addBytes (vx vy : Byte) : Byte := BitVec.ofNat 8 (vx.toNat + vy.toNat)

/-- `8xy5`, `8xy7`: the difference modulo 256 (R139, R141); 256 is added first, since a `Nat` difference stops at 0. -/
def subBytes (minuend subtrahend : Byte) : Byte := BitVec.ofNat 8 (256 + minuend.toNat - subtrahend.toNat)

/-- The two writes of a flag-writing instruction in the order of the source's table, the flag first and the result
second, so that with `x = 15` the result remains (`43_alu.md` R131, decision D12; log entry 7). -/
def State.setFlagThenReg (s : State) (flag : Byte) (x : Reg) (result : Byte) : State :=
  (s.setReg VF flag).setReg x result

end Sys2Proof.Machine
end

