-- ==== Sys2Proof/Machine/Alu.lean ====
section
/-! DEFINITION. Register loads, logic and arithmetic (`43_alu.md`): `6xkk`, `7xkk`, `8xy0` to `8xy7`, `8xyE`. Every
operand is read before any write (`00_scope.md` R12). -/

namespace Sys2Proof.Machine

/-- `6xkk` LD Vx, kk (R132). -/
def execLdImm (x : Reg) (kk : Byte) (s : State) : Host.Outcome State Fault Refusal :=
  .next (s.setReg x kk).advance

/-- `7xkk` ADD Vx, kk (R133): no flag changes. -/
def execAddImm (x : Reg) (kk : Byte) (s : State) : Host.Outcome State Fault Refusal :=
  .next (s.setReg x (addBytes (s.reg x) kk)).advance

/-- `8xy0` LD Vx, Vy (R134). -/
def execLdReg (x y : Reg) (s : State) : Host.Outcome State Fault Refusal :=
  .next (s.setReg x (s.reg y)).advance

/-- `8xy1` OR Vx, Vy (R135): `VF` is left unchanged. -/
def execOrReg (x y : Reg) (s : State) : Host.Outcome State Fault Refusal :=
  .next (s.setReg x (s.reg x ||| s.reg y)).advance

/-- `8xy2` AND Vx, Vy (R136): `VF` is left unchanged. -/
def execAndReg (x y : Reg) (s : State) : Host.Outcome State Fault Refusal :=
  .next (s.setReg x (s.reg x &&& s.reg y)).advance

/-- `8xy3` XOR Vx, Vy (R137): `VF` is left unchanged. -/
def execXorReg (x y : Reg) (s : State) : Host.Outcome State Fault Refusal :=
  .next (s.setReg x (s.reg x ^^^ s.reg y)).advance

/-- `8xy4` ADD Vx, Vy (R138). -/
def execAddReg (x y : Reg) (s : State) : Host.Outcome State Fault Refusal :=
  .next (s.setFlagThenReg (carryFlag (s.reg x) (s.reg y)) x (addBytes (s.reg x) (s.reg y))).advance

/-- `8xy5` SUB Vx, Vy (R139). -/
def execSubReg (x y : Reg) (s : State) : Host.Outcome State Fault Refusal :=
  .next (s.setFlagThenReg (greaterFlag (s.reg x) (s.reg y)) x (subBytes (s.reg x) (s.reg y))).advance

/-- `8xy6` SHR Vx (R140): `Vy` is not read. -/
def execShr (x : Reg) (s : State) : Host.Outcome State Fault Refusal :=
  .next (s.setFlagThenReg (lowBitFlag (s.reg x)) x (s.reg x >>> 1)).advance

/-- `8xy7` SUBN Vx, Vy (R141). -/
def execSubnReg (x y : Reg) (s : State) : Host.Outcome State Fault Refusal :=
  .next (s.setFlagThenReg (greaterFlag (s.reg y) (s.reg x)) x (subBytes (s.reg y) (s.reg x))).advance

/-- `8xyE` SHL Vx (R142): `Vy` is not read. -/
def execShl (x : Reg) (s : State) : Host.Outcome State Fault Refusal :=
  .next (s.setFlagThenReg (highBitFlag (s.reg x)) x (s.reg x <<< 1)).advance

end Sys2Proof.Machine
end

