-- ==== Sys2Proof/Machine/Operands.lean ====
section
/-! DEFINITION. The operand forms of the instructions: zero-extended immediates and addresses, the effective addresses
of the data accesses and their range checks, key indices. -/

namespace Sys2Proof.Machine

/-- `nnn` zero-extended to 16 bits, where it is written to `PC` or `I` (`30_encoding.md` R73). -/
def zextAddr (nnn : Addr12) : Word := nnn.setWidth 16

/-- A key index as a register's content, zero-extended (`46_keypad.md` R178). -/
def keyByte (k : Key) : Byte := BitVec.ofNat 8 k.val

/-- The base of every data access, the value of `I` before the instruction, as an unbounded integer
(`44_index_memory.md` R150). -/
def State.base (s : State) : Nat := s.i.toNat

/-- The range check of an instruction that accesses the `len` bytes from `base` on, made before any effect: with `len >= 1`
and `base + len - 1 > 0xFFF` it raises `DataAddressError(0x1000)` (`20_memory.md` R58; log entry 12). -/
def windowFault (base len : Nat) : Option Fault :=
  if 1 ≤ len ∧ 0xFFF < base + len - 1 then some (.dataAddressError 0x1000) else none

/-- The check of `Fx1E` (`44_index_memory.md` R152). -/
def indexFault (sum : Nat) : Option Fault := if 0xFFF < sum then some (.indexOutOfRange sum) else none

/-- The check of `Ex9E` and `ExA1` (`46_keypad.md` R180). -/
def keyFault (vx : Byte) : Option Fault := if 15 < vx.toNat then some (.keyIndexError vx) else none

/-- The check of `2nnn` (`41_control_flow.md` R113). -/
def pushFault (s : State) : Option Fault := if s.sp.val = 16 then some .stackOverflow else none

/-- The check of `00EE` (`41_control_flow.md` R111). -/
def popFault (s : State) : Option Fault := if s.sp.val = 0 then some .stackUnderflow else none

/-- The registers `V0` to `Vx`, in that order (`44_index_memory.md` R155, R156). -/
def regsUpTo (v : Vector Byte 16) (x : Reg) : List Byte := v.toList.take (x.val + 1)

/-- The registers after `V0` to `Vx` are loaded from `base` on: register `Vj` corresponds to address `base + j`, and the
registers above `Vx` are unchanged (`44_index_memory.md` R155, R157). -/
def loadRegs (m : Memory) (base : Nat) (x : Reg) (v : Vector Byte 16) : Vector Byte 16 :=
  Vector.ofFn fun j : Fin 16 => if j ≤ x then m.read (base + j.val) else v[j]

/-- The three decimal digits of a byte, hundreds, tens, ones, one byte each (`44_index_memory.md` R154). -/
def bcdDigits (vx : Byte) : List Byte :=
  [BitVec.ofNat 8 (vx.toNat / 100), BitVec.ofNat 8 (vx.toNat / 10 % 10), BitVec.ofNat 8 (vx.toNat % 10)]

end Sys2Proof.Machine
end

