-- ==== Sys2Proof/Machine/ControlFlow.lean ====
section
/-! DEFINITION. Control transfers (`41_control_flow.md`): `00EE`, `1nnn`, `2nnn`, `Bnnn`. None checks its target
(`40_cycle.md` R98). -/

namespace Sys2Proof.Machine

/-- `00EE` RET (R111): the popped entry goes to `PC` with nothing added. -/
def execRet (s : State) : Host.Outcome State Fault Refusal :=
  .next (s.unlessFault (popFault s) (s.drop.setPc s.top))

/-- `1nnn` JP nnn (R112). -/
def execJp (nnn : Addr12) (s : State) : Host.Outcome State Fault Refusal :=
  .next (s.setPc (zextAddr nnn))

/-- `2nnn` CALL nnn (R113): the return address pushed is `pc0 + 2` (`90_conflicts.md` C1). -/
def execCall (nnn : Addr12) (s : State) : Host.Outcome State Fault Refusal :=
  .next (s.unlessFault (pushFault s) ((s.push (s.pc + 2)).setPc (zextAddr nnn)))

/-- `Bnnn` JP V0, nnn (R114): the sum is not masked. -/
def execJpV0 (nnn : Addr12) (s : State) : Host.Outcome State Fault Refusal :=
  .next (s.setPc (BitVec.ofNat 16 (nnn.toNat + (s.reg 0).toNat)))

end Sys2Proof.Machine
end

