-- ==== Sys2Proof/Machine/Display.lean ====
section
/-! DEFINITION. The display instructions (`45_display.md`): `00E0`, `Dxyn`. -/

namespace Sys2Proof.Machine

/-- `00E0` CLS (R166). -/
def execCls (s : State) : Host.Outcome State Fault Refusal :=
  .next (s.setDisp 0).advance

/-- The display and the collision latch after the sprite of `n` bytes at `I` is drawn with its corner at column `V[x]`,
row `V[y]`, the latch starting at 0 (R167, R168). -/
def State.drawn (s : State) (x y : Reg) (n : Rows) : Display × Bool :=
  drawSprite (s.reg x).toNat (s.reg y).toNat (s.mem.readBytes s.base n.val) (s.disp, false)

/-- `Dxyn` DRW Vx, Vy, n (R167): the check covers all `n` rows, and the coordinates are the latched ones. -/
def execDrw (x y : Reg) (n : Rows) (s : State) : Host.Outcome State Fault Refusal :=
  .next (s.unlessFault (windowFault s.base n.val)
    ((s.setDisp (s.drawn x y n).1).setReg VF (collisionFlag (s.drawn x y n).2)).advance)

end Sys2Proof.Machine
end

