-- ==== Sys2Proof/Machine/IndexMemory.lean ====
section
/-! DEFINITION. The index register and memory (`44_index_memory.md`): `Annn`, `Fx1E`, `Fx29`, `Fx33`, `Fx55`, `Fx65`. The
three memory instructions leave `I` unchanged (R150). -/

namespace Sys2Proof.Machine

/-- `Annn` LD I, nnn (R151). -/
def execLdI (nnn : Addr12) (s : State) : Host.Outcome State Fault Refusal :=
  .next (s.setI (zextAddr nnn)).advance

/-- `Fx1E` ADD I, Vx (R152): a sum above `0xFFF` faults and leaves `I` unchanged; `VF` is not written. -/
def execAddIVx (x : Reg) (s : State) : Host.Outcome State Fault Refusal :=
  .next (s.unlessFault (indexFault (s.i.toNat + (s.reg x).toNat))
    (s.setI (BitVec.ofNat 16 (s.i.toNat + (s.reg x).toNat))).advance)

/-- `Fx29` LD F, Vx (R153): `5 * Vx` of the whole byte, unmasked. -/
def execLdFVx (x : Reg) (s : State) : Host.Outcome State Fault Refusal :=
  .next (s.setI (BitVec.ofNat 16 (5 * (s.reg x).toNat))).advance

/-- `Fx33` LD B, Vx (R154). -/
def execLdBVx (x : Reg) (s : State) : Host.Outcome State Fault Refusal :=
  .next (s.unlessFault (windowFault s.base 3)
    (s.setMem (s.mem.writeBytes s.base (bcdDigits (s.reg x)))).advance)

/-- `Fx55` LD [I], Vx (R155, R156). -/
def execLdMemVx (x : Reg) (s : State) : Host.Outcome State Fault Refusal :=
  .next (s.unlessFault (windowFault s.base (x.val + 1))
    (s.setMem (s.mem.writeBytes s.base (regsUpTo s.v x))).advance)

/-- `Fx65` LD Vx, [I] (R155, R157). -/
def execLdVxMem (x : Reg) (s : State) : Host.Outcome State Fault Refusal :=
  .next (s.unlessFault (windowFault s.base (x.val + 1))
    (s.setRegs (loadRegs s.mem s.base x s.v)).advance)

end Sys2Proof.Machine
end

