-- ==== Sys2Proof/Machine/Keypad.lean ====
section
/-! DEFINITION. The keypad instructions (`46_keypad.md`): `Ex9E`, `ExA1`, `Fx0A`. They read the samples taken at the start
of the tick (`40_cycle.md` R101). -/

namespace Sys2Proof.Machine

/-- `keys_down[k]` for the whole byte `vx` as the index (R176, R180). -/
def State.keyDown (s : State) (vx : Byte) : Bool := s.keysDown.getLsbD vx.toNat

/-- `Ex9E` SKP Vx (R176). -/
def execSkp (x : Reg) (s : State) : Host.Outcome State Fault Refusal :=
  .next (s.unlessFault (keyFault (s.reg x)) (s.skipIf (s.keyDown (s.reg x))))

/-- `ExA1` SKNP Vx (R177). -/
def execSknp (x : Reg) (s : State) : Host.Outcome State Fault Refusal :=
  .next (s.unlessFault (keyFault (s.reg x)) (s.skipIf (!s.keyDown (s.reg x))))

/-- `Fx0A` LD Vx, K (R178): without a key event nothing changes but `RS`, and `PC` stays, so that the next tick executes
it again (R179). -/
def execLdVxK (x : Reg) (s : State) : Host.Outcome State Fault Refusal :=
  .next (match s.keyEvent with
    | none => s.setRs .awaitingKey
    | some k => ((s.setReg x (keyByte k)).setRs .running).advance)

end Sys2Proof.Machine
end

