-- ==== Sys2Proof/Machine/TimersRandom.lean ====
section
/-! DEFINITION. Timer and random instructions (`47_timers_random.md`): `Fx07`, `Fx15`, `Fx18`, `Cxkk`. -/

namespace Sys2Proof.Machine

/-- `Fx07` LD Vx, DT (R186). -/
def execLdVxDt (x : Reg) (s : State) : Host.Outcome State Fault Refusal :=
  .next (s.setReg x s.dt).advance

/-- `Fx15` LD DT, Vx (R187). -/
def execLdDtVx (x : Reg) (s : State) : Host.Outcome State Fault Refusal :=
  .next (s.setDt (s.reg x)).advance

/-- `Fx18` LD ST, Vx (R188). -/
def execLdStVx (x : Reg) (s : State) : Host.Outcome State Fault Refusal :=
  .next (s.setSt (s.reg x)).advance

/-- `Cxkk` RND Vx, kk (R189): the draw is a free input (log entry 6). -/
def execRnd (x : Reg) (kk : Byte) (s : State) : Host.Outcome State Fault Refusal :=
  .next (s.consumeRnd.setReg x (s.nextRnd &&& kk)).advance

end Sys2Proof.Machine
end

