-- ==== Sys2Proof/Machine/Cycle.lean ====
section
/-! DEFINITION. The execution cycle (`40_cycle.md`): fetch, decode and execute one instruction, and the tick. -/

namespace Sys2Proof.Machine

/-- The fetch stage's checks, in their order (R93): an odd `PC`, then a `PC` above `0xFFE`. -/
def fetchFault (s : State) : Option Fault :=
  if s.pc.getLsbD 0 then some (.pcMisaligned s.pc)
  else if 0xFFE < s.pc.toNat then some (.pcOutOfRange s.pc)
  else none

/-- The word the fetch stage reads at `PC` (R93). -/
def State.fetched (s : State) : Word := s.mem.fetch16 s.pc.toNat

/-- `InstrStep` (R92): fetch (R93), decode (R94), execute (R95). -/
def instrStep (s : State) : Host.Outcome State Fault Refusal :=
  match fetchFault s with
  | some f => .next (s.raise f)
  | none =>
    match decode s.fetched with
    | .error _ => .next (s.raise (.illegalInstruction s.fetched))
    | .ok i => exec i s

/-- The slots of a tick after its first one (R90): each runs only while `RS = Running`. -/
def moreSlots : Nat → State → Host.Outcome State Fault Refusal
  | 0, s => .next s
  | k + 1, s => if s.rs = .running then andThen (instrStep s) (moreSlots k) else .next s

/-- The loop `for slot in 1 .. IPT` of a tick (R90): the first slot runs in `AwaitingKey` as well (R92, R179). -/
def slots : Nat → State → Host.Outcome State Fault Refusal
  | 0, s => .next s
  | k + 1, s => andThen (instrStep s) (moreSlots k)

/-- The end of a tick: `TimerStep` only if `RS = Running` at that point (R90, R99). -/
def endTick (s : State) : State := if s.rs = .running then s.timerStep else s

/-- `Tick` (R90): the inputs are sampled once at its start (R101); in `Halted` nothing changes (R91). -/
def tick (s : State) : Host.Outcome State Fault Refusal :=
  if s.rs = .halted then .next s
  else andThen (slots s.ipt s.sampleKeys) fun t => .next (endTick t)

/-- The state with the two bytes of an instruction stored where the fetch stage reads, where `PC` is an address the fetch
stage accepts (R93). -/
def State.withFetchBytes (s : State) (bytes : List Byte) : State :=
  match fetchFault s with
  | some _ => s
  | none => s.setMem (s.mem.writeBytes s.pc.toNat bytes)

end Sys2Proof.Machine
end

