-- ==== Sys2Proof/Machine/Reset.lean ====
section
/-! DEFINITION. Reset and load (`70_reset_and_hazards.md`): one operation, with any parameters of R7. -/

namespace Sys2Proof.Machine

/-- The parameters of `State.reset`: the defaults of R7 and an empty ROM. -/
def defaultParams : ResetParams := { loadBase := 0x200, rom := [], font := defaultFont, ipt := 1 }

/-- The memory after reset (R241): zero, then the font at `0x000`, then the ROM at the load base. The zeros of the first
80 addresses need no write of their own, since the font's 80 bytes cover them. -/
def resetMemory (p : ResetParams) : Memory :=
  Memory.writeBytes (Memory.writeBytes [] 0 p.font) p.loadBase p.rom

/-- `Reset(LOAD_BASE, ROM)` (R241): the state of `10_state.md` R36, or a refusal: of a ROM too large for the memory (R225,
R242), and of parameters that are not legal (R7). Nothing of an earlier state survives (R240): the old state is no
argument. -/
def State.resetWith (p : ResetParams) : Host.Outcome State Fault Refusal :=
  if !(p.baseOk && p.fontOk && p.iptOk) then .refused .illegalParameter
  else if !p.romFits then .refused .romTooLarge
  else .next { State.reset with
    pc := BitVec.ofNat 16 p.loadBase
    mem := resetMemory p
    ipt := p.ipt }

end Sys2Proof.Machine
end

