-- ==== Sys2Proof/Machine/Step.lean ====
section
/-! DEFINITION. The step of the machine is `Tick`, "the only transition the host can cause after reset" (`40_cycle.md`
R90). -/

namespace Sys2Proof.Machine

def step (s : State) : Host.Outcome State Fault Refusal := tick s

/-- The state whose next step fetches and runs the instruction whose bits, as the opcode table numbers them, are `w`
(log entry 13). -/
def State.withFetchWord (s : State) (nbits w : Nat) : State := s.withFetchBytes (tableWordBytes nbits w)

end Sys2Proof.Machine
end

