-- ==== Sys2Proof/Safety.lean ====
section
/-! DEFINITION. The terms in which statements speak of runs and of the spec's words: the invariant of `10_state.md` R35, the
fields of an encoding line, and the sprite bit over a pixel. -/

namespace Sys2Proof

/-- `x<<8` in the "Encoding" line of a rule. -/
def x8 (x : Reg) : Word := BitVec.ofNat 16 x.val <<< 8

/-- `y<<4` in the "Encoding" line of a rule. -/
def y4 (y : Reg) : Word := BitVec.ofNat 16 y.val <<< 4

namespace Machine

/-- What holds in every state reachable from reset (`10_state.md` R35), with the bounds that R23 and R25 give `PC` and the
return addresses, the canonical form of the memory, and `IPT >= 1` (`00_scope.md` R7). -/
structure State.Inv (s : State) : Prop where
  /-- `I <= 0xFFF` (R24, R35). -/
  index : s.i.toNat ≤ 0xFFF
  /-- `FCAUSE != 0` exactly when `RS = Halted` (R30, R35). -/
  faultRecord : s.fcause ≠ 0 ↔ s.rs = .halted
  /-- `FINFO` is 0 when no fault has halted the core (R30). -/
  faultInfo : s.rs ≠ .halted → s.finfo = 0
  /-- While `RS = AwaitingKey`, `PC` is the fetchable address of an `Fx0A` (R35). -/
  waiting : s.rs = .awaitingKey → fetchFault s = none ∧ ∃ x, decode s.fetched = .ok (.ldVxK x)
  /-- The largest value any rule writes to `PC` is `0x10FE` (R23). -/
  pcBound : s.pc.toNat ≤ 0x10FE
  /-- Every entry of `STACK` is even and at most `0x1000`: 0 from reset, or an even `pc0` plus 2 (R25, R204). -/
  returnAddresses : ∀ j : Fin 16, s.stack[j].toNat ≤ 0x1000 ∧ s.stack[j].toNat % 2 = 0
  /-- The memory is in canonical form (R31, R50). -/
  memory : s.mem.wf = true
  /-- `IPT >= 1` (R7). -/
  slotsPerTick : 1 ≤ s.ipt

/-- The core has not faulted: a run is safe while this holds (`60_exceptions.md` R200). -/
def State.faultFree (s : State) : Prop := s.rs ≠ .halted

/-- The sprite bit that `Dxyn` with corner `(vx, vy)` and `n` rows lays over pixel `(row, col)`: bit `7 - (col - vx)` of
the byte at `I + (row - vy)`, and no bit outside the sprite's `n` rows and 8 columns (`45_display.md` R167, R170). -/
def State.spriteBit (s : State) (vx vy n row col : Nat) : Bool :=
  decide (vy ≤ row ∧ row < vy + n ∧ vx ≤ col ∧ col < vx + 8) &&
    (s.mem.read (s.i.toNat + (row - vy))).getLsbD (7 - (col - vx))

/-- Two states that differ at most in the dead entries of the stack, those at indices `>= SP` (`10_state.md` R25). -/
def sameButDeadEntries (s t : State) : Prop :=
  t = { s with stack := t.stack } ∧ ∀ j : Fin 16, j.val < s.sp.val → t.stack[j] = s.stack[j]

end Machine

end Sys2Proof
end

