-- ==== Sys2Proof/Certificates/Slice0/Obligations.lean ====
section
/-! DEFINITION. The statements for the provers. An instruction's statement says which words decode to it, that `exec`
answers a next state, and what that state is: written as the old state with the changed fields named, it is the frame as
well. -/

open Sys2Proof Sys2Proof.Machine

/-! ## Encoding -/

/-- `30_encoding.md` R76 and the decode samples of `95_test_vectors.md` 2.1: a few words, written out. -/
def Obligations.SampleWordsDecodeAsTheTableSays : Prop :=
  decode 0x00E0 = .ok .cls ∧ decode 0x00EE = .ok .ret ∧ decode 0x1FFF = .ok (.jp 0xFFF) ∧
  decode 0x5120 = .ok (.seReg 1 2) ∧ decode 0x6A42 = .ok (.ldImm 10 0x42) ∧ decode 0x8126 = .ok (.shr 1) ∧
  decode 0x81FE = .ok (.shl 1) ∧ decode 0xA300 = .ok (.ldI 0x300) ∧ decode 0xC0FF = .ok (.rnd 0 0xFF) ∧
  decode 0xD015 = .ok (.drw 0 1 5) ∧ decode 0xE1A1 = .ok (.sknp 1) ∧ decode 0xFF65 = .ok (.ldVxMem 15) ∧
  decode 0x0000 = .error (.illegal 0x0000) ∧ decode 0x5121 = .error (.illegal 0x5121) ∧
  decode 0x8128 = .error (.illegal 0x8128) ∧ decode 0xF1FF = .error (.illegal 0xF1FF)

/-- `30_encoding.md` R74: the decoder is total, follows the rows of the table, whose patterns are pairwise disjoint, and
rejects a word that matches none. -/
def Obligations.DecodeFollowsTheDisjointTable : Prop :=
  opcodeTable.length = 34 ∧
  (∀ (w : Word) (r r' : OpcodeRow), r ∈ opcodeTable → r' ∈ opcodeTable → w &&& r.mask = r.pattern →
    w &&& r'.mask = r'.pattern → r = r') ∧
  ∀ w : Word,
    (∀ r ∈ opcodeTable, w &&& r.mask = r.pattern → decode w = .ok (r.build w)) ∧
    ((∀ r ∈ opcodeTable, w &&& r.mask ≠ r.pattern) → decode w = .error (.illegal w))

/-- `30_encoding.md` R75: which words of each family are legal. -/
def Obligations.LegalWordsOfEachFamily : Prop :=
  ∀ w : Word, (∃ i, decode w = .ok i) ↔
    (let op := w.toNat / 4096; let n := w.toNat % 16; let kk := w.toNat % 256
     (op = 0 ∧ (w = 0x00E0 ∨ w = 0x00EE)) ∨
     op ∈ [1, 2, 0xA, 0xB] ∨ op ∈ [3, 4, 6, 7, 0xC] ∨ op = 0xD ∨
     (op = 5 ∧ n = 0) ∨ (op = 8 ∧ n ∈ [0, 1, 2, 3, 4, 5, 6, 7, 14]) ∨ (op = 9 ∧ n = 0) ∨
     (op = 0xE ∧ kk ∈ [0x9E, 0xA1]) ∨
     (op = 0xF ∧ kk ∈ [0x07, 0x0A, 0x15, 0x18, 0x1E, 0x29, 0x33, 0x55, 0x65]))

/-- Decode and encode agree, for every instruction with every operand (`30_encoding.md`, sections 1 to 3; that `SHR` and
`SHL` encode with `y = 0` is decision D27, log entry 11). -/
def Obligations.DecodeOfEncodeIsTheInstruction : Prop :=
  ∀ i : Instr, i.wellFormed = true ∧ decode (encode i) = .ok i ∧
    decodeBytes (encodeBytes i) = .ok (i, [])

/-- `30_encoding.md` R77: `SHR` and `SHL` decode for every `y`, the words that differ in `y` being the same instruction,
and no other legal word has a bit the instruction drops. -/
def Obligations.OnlyShiftsIgnoreAField : Prop :=
  (∀ x y : Reg, decode (0x8006 ||| x8 x ||| y4 y) = .ok (.shr x) ∧ decode (0x800E ||| x8 x ||| y4 y) = .ok (.shl x)) ∧
  ∀ (w : Word) (i : Instr), decode w = .ok i → (∀ x, i ≠ .shr x) → (∀ x, i ≠ .shl x) → encode i = w

/-- `20_memory.md` R52: bits 15 to 8 of the fetched word are the byte at the even address, bits 7 to 0 the next one. -/
def Obligations.FetchIsBigEndian : Prop :=
  ∀ (m : Memory) (a : Nat), a % 2 = 0 → a ≤ 0xFFE →
    (m.fetch16 a).toNat = (m.read a).toNat * 256 + (m.read (a + 1)).toNat ∧
    (m.fetch16 a).extractLsb' 8 8 = m.read a ∧ (m.fetch16 a).extractLsb' 0 8 = m.read (a + 1)

/-! ## Control transfers -/

/-- `41_control_flow.md` R111, R112, R114: `RET` on a stack that holds an entry goes to the entry popped, which stays in
`STACK`, and on an empty stack raises `StackUnderflow(0)` with `SP`, `PC` and `STACK` unchanged; `JP nnn` and `JP V0, nnn` go to their
unmasked absolute targets. -/
def Obligations.RetAndJumpsGoToAbsoluteTargets : Prop :=
  decode 0x00EE = .ok .ret ∧
  (∀ s : State, s.sp.val ≠ 0 → ∃ t, exec .ret s = .next t ∧ t.sp.val = s.sp.val - 1 ∧
    t.pc = s.stack.toList.getD (s.sp.val - 1) 0 ∧ t = { s with sp := t.sp, pc := t.pc }) ∧
  (∀ s : State, s.sp.val = 0 → exec .ret s =
    .next { s with rs := .halted, fcause := Fault.stackUnderflow.code, finfo := 0 }) ∧
  ∀ (nnn : Addr12) (s : State),
    (decode (0x1000 ||| nnn.setWidth 16) = .ok (.jp nnn) ∧
      ∃ t, exec (.jp nnn) s = .next t ∧ t.pc.toNat = nnn.toNat ∧ t = { s with pc := t.pc }) ∧
    (decode (0xB000 ||| nnn.setWidth 16) = .ok (.jpV0 nnn) ∧
      ∃ t, exec (.jpV0 nnn) s = .next t ∧ t.pc.toNat = nnn.toNat + s.v[(0 : Reg)].toNat ∧ t = { s with pc := t.pc })

/-- `41_control_flow.md` R113, decision D29 (the spec's own choice: the address pushed is `pc0 + 2`): `CALL` with fewer than
sixteen entries pushes the return address and jumps; with sixteen it raises `StackOverflow(16)` (code 2, decision D10). -/
def Obligations.CallPushesTheReturnAddress : Prop :=
  ∀ (nnn : Addr12) (s : State),
    decode (0x2000 ||| nnn.setWidth 16) = .ok (.call nnn) ∧
    (s.sp.val < 16 → ∃ t, exec (.call nnn) s = .next t ∧ t.sp.val = s.sp.val + 1 ∧ t.pc.toNat = nnn.toNat ∧
      (∀ j : Fin 16, t.stack[j] = if j.val = s.sp.val then s.pc + 2 else s.stack[j]) ∧
      t = { s with sp := t.sp, pc := t.pc, stack := t.stack }) ∧
    (s.sp.val = 16 → exec (.call nnn) s = .next { s with rs := .halted, fcause := 2, finfo := 16 })

/-- `90_conflicts.md` C1: a `RET` that pops what a `CALL` pushed goes to the word after the `CALL`, with the stack pointer
as before it, whatever the subroutine did to the rest of the state. -/
def Obligations.RetReturnsAfterItsCall : Prop :=
  ∀ (nnn : Addr12) (s t u : State), s.sp.val < 16 → exec (.call nnn) s = .next t → u.sp = t.sp → u.stack = t.stack →
    ∃ r, exec .ret u = .next r ∧ r.pc = s.pc + 2 ∧ r.sp = s.sp ∧ r = { u with pc := r.pc, sp := r.sp }

/-! ## Skips -/

/-- `42_skips.md` R121 to R124: each of the four skips compares for equality and writes nothing but `PC`. -/
def Obligations.SkipsCompareForEquality : Prop :=
  ∀ (x y : Reg) (kk : Byte) (s : State),
    (decode (0x3000 ||| x8 x ||| kk.setWidth 16) = .ok (.seImm x kk) ∧
      exec (.seImm x kk) s = .next { s with pc := if s.v[x] = kk then s.pc + 4 else s.pc + 2 }) ∧
    (decode (0x4000 ||| x8 x ||| kk.setWidth 16) = .ok (.sneImm x kk) ∧
      exec (.sneImm x kk) s = .next { s with pc := if s.v[x] ≠ kk then s.pc + 4 else s.pc + 2 }) ∧
    (decode (0x5000 ||| x8 x ||| y4 y) = .ok (.seReg x y) ∧
      exec (.seReg x y) s = .next { s with pc := if s.v[x] = s.v[y] then s.pc + 4 else s.pc + 2 }) ∧
    (decode (0x9000 ||| x8 x ||| y4 y) = .ok (.sneReg x y) ∧
      exec (.sneReg x y) s = .next { s with pc := if s.v[x] ≠ s.v[y] then s.pc + 4 else s.pc + 2 })

/-! ## Loads, logic and arithmetic -/

/-- `43_alu.md` R132 to R137: loads, the immediate add and the bitwise operations write `Vx` and `PC` only (`VF` only when
`x` names it). -/
def Obligations.LoadsAddImmediateAndLogic : Prop :=
  ∀ (x y : Reg) (kk : Byte) (s : State),
    (decode (0x6000 ||| x8 x ||| kk.setWidth 16) = .ok (.ldImm x kk) ∧
      exec (.ldImm x kk) s = .next { s with v := s.v.set x kk, pc := s.pc + 2 }) ∧
    (decode (0x7000 ||| x8 x ||| kk.setWidth 16) = .ok (.addImm x kk) ∧
      ∃ t, exec (.addImm x kk) s = .next t ∧ t.v[x].toNat = (s.v[x].toNat + kk.toNat) % 256 ∧
        t = { s with v := s.v.set x t.v[x], pc := s.pc + 2 }) ∧
    (decode (0x8000 ||| x8 x ||| y4 y) = .ok (.ldReg x y) ∧
      exec (.ldReg x y) s = .next { s with v := s.v.set x s.v[y], pc := s.pc + 2 }) ∧
    (decode (0x8001 ||| x8 x ||| y4 y) = .ok (.orReg x y) ∧
      exec (.orReg x y) s = .next { s with v := s.v.set x (s.v[x] ||| s.v[y]), pc := s.pc + 2 }) ∧
    (decode (0x8002 ||| x8 x ||| y4 y) = .ok (.andReg x y) ∧
      exec (.andReg x y) s = .next { s with v := s.v.set x (s.v[x] &&& s.v[y]), pc := s.pc + 2 }) ∧
    (decode (0x8003 ||| x8 x ||| y4 y) = .ok (.xorReg x y) ∧
      exec (.xorReg x y) s = .next { s with v := s.v.set x (s.v[x] ^^^ s.v[y]), pc := s.pc + 2 })

/-- `43_alu.md` R138 to R142: the result in `Vx` for every `x`, the flag in `VF` where `x` does not name it, every other
register unchanged. With `x = 15` the result is what remains, as the rules' corner cases say (the order of the two writes
is decision D12, log entry 7); `y = 15` reads the old `VF`. -/
def Obligations.FlagArithmeticWritesResultAndFlag : Prop :=
  ∀ (x y : Reg) (s : State),
    (decode (0x8004 ||| x8 x ||| y4 y) = .ok (.addReg x y) ∧
      ∃ t, exec (.addReg x y) s = .next t ∧ t.v[x].toNat = (s.v[x].toNat + s.v[y].toNat) % 256 ∧
        (x ≠ 15 → t.v[(15 : Reg)] = if 255 < s.v[x].toNat + s.v[y].toNat then 1 else 0) ∧
        t = { s with v := (s.v.set 15 t.v[(15 : Reg)]).set x t.v[x], pc := s.pc + 2 }) ∧
    (decode (0x8005 ||| x8 x ||| y4 y) = .ok (.subReg x y) ∧
      ∃ t, exec (.subReg x y) s = .next t ∧ t.v[x].toNat = (256 + s.v[x].toNat - s.v[y].toNat) % 256 ∧
        (x ≠ 15 → t.v[(15 : Reg)] = if s.v[y].toNat < s.v[x].toNat then 1 else 0) ∧
        t = { s with v := (s.v.set 15 t.v[(15 : Reg)]).set x t.v[x], pc := s.pc + 2 }) ∧
    (decode (0x8006 ||| x8 x ||| y4 y) = .ok (.shr x) ∧
      ∃ t, exec (.shr x) s = .next t ∧ t.v[x].toNat = s.v[x].toNat / 2 ∧
        (x ≠ 15 → t.v[(15 : Reg)].toNat = s.v[x].toNat % 2) ∧
        t = { s with v := (s.v.set 15 t.v[(15 : Reg)]).set x t.v[x], pc := s.pc + 2 }) ∧
    (decode (0x8007 ||| x8 x ||| y4 y) = .ok (.subnReg x y) ∧
      ∃ t, exec (.subnReg x y) s = .next t ∧ t.v[x].toNat = (256 + s.v[y].toNat - s.v[x].toNat) % 256 ∧
        (x ≠ 15 → t.v[(15 : Reg)] = if s.v[x].toNat < s.v[y].toNat then 1 else 0) ∧
        t = { s with v := (s.v.set 15 t.v[(15 : Reg)]).set x t.v[x], pc := s.pc + 2 }) ∧
    (decode (0x800E ||| x8 x ||| y4 y) = .ok (.shl x) ∧
      ∃ t, exec (.shl x) s = .next t ∧ t.v[x].toNat = 2 * s.v[x].toNat % 256 ∧
        (x ≠ 15 → t.v[(15 : Reg)].toNat = s.v[x].toNat / 128) ∧
        t = { s with v := (s.v.set 15 t.v[(15 : Reg)]).set x t.v[x], pc := s.pc + 2 })

/-! ## The index register and memory -/

/-- `44_index_memory.md` R151: `LD I, nnn` writes `nnn`, zero-extended, to `I`. -/
def Obligations.LoadIndexWritesTheAddress : Prop :=
  ∀ (nnn : Addr12) (s : State),
    decode (0xA000 ||| nnn.setWidth 16) = .ok (.ldI nnn) ∧
    ∃ t, exec (.ldI nnn) s = .next t ∧ t.i.toNat = nnn.toNat ∧ t = { s with i := t.i, pc := s.pc + 2 }

/-- `44_index_memory.md` R152 (decision D7) and R153 (decision D25), the spec's own choices: `ADD I, Vx` with a sum up to
`0xFFF` writes it to `I`, and with a larger sum raises `IndexOutOfRange(sum)`, code 7, with `I` and `VF` unchanged;
`LD F, Vx` writes `5 * Vx`, unmasked. -/
def Obligations.IndexArithmetic : Prop :=
  ∀ (x : Reg) (s : State),
    decode (0xF01E ||| x8 x) = .ok (.addIVx x) ∧
    (s.i.toNat + s.v[x].toNat ≤ 0xFFF → ∃ t, exec (.addIVx x) s = .next t ∧
      t.i.toNat = s.i.toNat + s.v[x].toNat ∧ t = { s with i := t.i, pc := s.pc + 2 }) ∧
    (0xFFF < s.i.toNat + s.v[x].toNat → exec (.addIVx x) s =
      .next { s with rs := .halted, fcause := 7, finfo := BitVec.ofNat 16 (s.i.toNat + s.v[x].toNat) }) ∧
    decode (0xF029 ||| x8 x) = .ok (.ldFVx x) ∧
    ∃ t, exec (.ldFVx x) s = .next t ∧ t.i.toNat = 5 * s.v[x].toNat ∧ t = { s with i := t.i, pc := s.pc + 2 }

/-- `44_index_memory.md` R154: `LD B, Vx` with `I <= 0xFFD` stores the hundreds, tens and ones of `Vx` at `I`, `I+1`, `I+2`
and changes no other byte; with `I > 0xFFD` it raises `DataAddressError(0x1000)` and stores nothing. -/
def Obligations.BcdStoresThreeDigits : Prop :=
  ∀ (x : Reg) (s : State), s.mem.wf = true →
    decode (0xF033 ||| x8 x) = .ok (.ldBVx x) ∧
    (s.i.toNat ≤ 0xFFD → ∃ t, exec (.ldBVx x) s = .next t ∧
      (t.mem.read s.i.toNat).toNat = s.v[x].toNat / 100 ∧
      (t.mem.read (s.i.toNat + 1)).toNat = s.v[x].toNat / 10 % 10 ∧
      (t.mem.read (s.i.toNat + 2)).toNat = s.v[x].toNat % 10 ∧
      (∀ a, a < s.i.toNat ∨ s.i.toNat + 2 < a → t.mem.read a = s.mem.read a) ∧
      t = { s with mem := t.mem, pc := s.pc + 2 }) ∧
    (0xFFD < s.i.toNat → exec (.ldBVx x) s =
      .next { s with rs := .halted, fcause := (Fault.dataAddressError 0x1000).code, finfo := 0x1000 })

/-- `44_index_memory.md` R156: `LD [I], Vx` stores `V0` to `Vx` at `I` to `I + x` and changes no other byte, or, with
`I + x > 0xFFF`, halts the core and stores nothing. -/
def Obligations.BlockStoreWritesRegistersInOrder : Prop :=
  ∀ (x : Reg) (s : State), s.mem.wf = true →
    decode (0xF055 ||| x8 x) = .ok (.ldMemVx x) ∧
    (s.i.toNat + x.val ≤ 0xFFF → ∃ t, exec (.ldMemVx x) s = .next t ∧
      (∀ j : Reg, j ≤ x → t.mem.read (s.i.toNat + j.val) = s.v[j]) ∧
      (∀ a, a < s.i.toNat ∨ s.i.toNat + x.val < a → t.mem.read a = s.mem.read a) ∧
      t = { s with mem := t.mem, pc := s.pc + 2 }) ∧
    (0xFFF < s.i.toNat + x.val → exec (.ldMemVx x) s =
      .next { s with rs := .halted, fcause := (Fault.dataAddressError 0x1000).code, finfo := 0x1000 })

/-- `44_index_memory.md` R157: `LD Vx, [I]` loads `V0` to `Vx` from `I` to `I + x` and leaves the registers above `Vx` and
all of memory, or, with `I + x > 0xFFF`, halts the core and loads nothing. -/
def Obligations.BlockLoadReadsBytesInOrder : Prop :=
  ∀ (x : Reg) (s : State),
    decode (0xF065 ||| x8 x) = .ok (.ldVxMem x) ∧
    (s.i.toNat + x.val ≤ 0xFFF → ∃ t, exec (.ldVxMem x) s = .next t ∧
      (∀ j : Reg, t.v[j] = if j ≤ x then s.mem.read (s.i.toNat + j.val) else s.v[j]) ∧
      t = { s with v := t.v, pc := s.pc + 2 }) ∧
    (0xFFF < s.i.toNat + x.val → exec (.ldVxMem x) s =
      .next { s with rs := .halted, fcause := (Fault.dataAddressError 0x1000).code, finfo := 0x1000 })

/-- `44_index_memory.md` R155: the block transfers move `V0` up to and including `Vx`, leave `I`, fault together exactly
when `I + x > 0xFFF` with nothing moved, and a store followed by a load with the same `x` and `I` restores `V0` to `Vx`,
whatever the registers held in between. -/
def Obligations.BlockStoreThenLoadRestores : Prop :=
  ∀ (x : Reg) (s : State), s.mem.wf = true →
    (s.i.toNat + x.val ≤ 0xFFF → ∃ t, exec (.ldMemVx x) s = .next t ∧ t.rs = s.rs ∧ t.i = s.i ∧
      ∀ w : Vector Byte 16, ∃ u, exec (.ldVxMem x) { t with v := w } = .next u ∧ u.rs = s.rs ∧ u.i = s.i ∧
        ∀ j : Reg, u.v[j] = if j ≤ x then s.v[j] else w[j]) ∧
    (0xFFF < s.i.toNat + x.val → ∃ t u, exec (.ldMemVx x) s = .next t ∧ exec (.ldVxMem x) s = .next u ∧
      t.rs = .halted ∧ u.rs = .halted ∧ t.mem = s.mem ∧ u.v = s.v ∧ t.i = s.i ∧ u.i = s.i)

/-- `20_memory.md` R63, decision D26 (the spec's own choice): the fetch after a store reads the bytes just stored, also
where the word straddles the end of the stored block. -/
def Obligations.FetchSeesTheStoreBefore : Prop :=
  ∀ (x : Reg) (s t : State) (a : Nat), s.mem.wf = true → s.i.toNat + x.val ≤ 0xFFF → exec (.ldMemVx x) s = .next t →
    (∀ j : Reg, j ≤ x → a = s.i.toNat + j.val → (t.mem.fetch16 a).extractLsb' 8 8 = s.v[j]) ∧
    (∀ j : Reg, j ≤ x → a + 1 = s.i.toNat + j.val → (t.mem.fetch16 a).extractLsb' 0 8 = s.v[j])

/-! ## The display -/

/-- `45_display.md` R166: `CLS` clears every pixel and changes nothing else but `PC`. -/
def Obligations.ClearTurnsEveryPixelOff : Prop :=
  decode 0x00E0 = .ok .cls ∧
  ∀ s : State, ∃ t, exec .cls s = .next t ∧ (∀ k < 2048, t.disp.getLsbD k = false) ∧
    t = { s with disp := t.disp, pc := s.pc + 2 }

/-- `45_display.md` R167 and R169, with the sprite's bit order of R170 (decisions D13, D14, D30, the spec's own choices;
log entry 10): with every sprite byte in memory, or no row at all, `DRW` flips exactly the pixels of the grid under a sprite bit of 1,
writes 0 or 1 to `VF`, and changes nothing else but `PC`; the coordinates are the registers' values before it. -/
def Obligations.DrawFlipsThePixelsUnderTheSprite : Prop :=
  ∀ (x y : Reg) (n : Rows) (s : State),
    decode (0xD000 ||| x8 x ||| y4 y ||| BitVec.ofNat 16 n.val) = .ok (.drw x y n) ∧
    (n.val = 0 ∨ s.i.toNat + n.val - 1 ≤ 0xFFF → ∃ t, exec (.drw x y n) s = .next t ∧
      (∀ row col, row < 32 → col < 64 → t.pixel row col =
        (s.pixel row col ^^ s.spriteBit s.v[x].toNat s.v[y].toNat n.val row col)) ∧
      (t.v[(15 : Reg)] = 0 ∨ t.v[(15 : Reg)] = 1) ∧
      t = { s with v := s.v.set 15 t.v[(15 : Reg)], disp := t.disp, pc := s.pc + 2 }) ∧
    (1 ≤ n.val ∧ 0xFFF < s.i.toNat + n.val - 1 →
      exec (.drw x y n) s = .next { s with rs := .halted, fcause := 6, finfo := 0x1000 })

/-- `45_display.md` R168: the final `VF` is 1 iff at least one in-bounds pixel was 1 before the instruction and had a
sprite bit of 1, and 0 otherwise. Which pixel a sprite bit lies over is `State.spriteBit`'s, by R167 and R170: the bit
order is decision D13 (log entry 10) and the missing wrap is D14 (log entry 17), the spec's own choices. -/
def Obligations.CollisionFlagIsAnErasedPixel : Prop :=
  ∀ (x y : Reg) (n : Rows) (s : State), n.val = 0 ∨ s.i.toNat + n.val - 1 ≤ 0xFFF →
    ∃ t, exec (.drw x y n) s = .next t ∧
      ((∃ row col, row < 32 ∧ col < 64 ∧ s.pixel row col = true ∧
        s.spriteBit s.v[x].toNat s.v[y].toNat n.val row col = true) → t.v[(15 : Reg)] = 1) ∧
      ((∀ row col, row < 32 → col < 64 → s.pixel row col = true →
        s.spriteBit s.v[x].toNat s.v[y].toNat n.val row col = false) → t.v[(15 : Reg)] = 0)

/-- `95_test_vectors.md` E5: drawing the same sprite twice at the same place restores the display; if the first draw erased
nothing, the second leaves `VF = 1` exactly when the sprite has a bit inside the grid. Which bits are inside the grid is
`State.spriteBit`'s: the bit order of R170 is decision D13 (log entry 10) and the missing wrap of R169 is D14 (log entry
17), the spec's own choices. `VF` as a coordinate is left to the statements before, since the first draw writes it. -/
def Obligations.DrawingTwiceRestoresTheDisplay : Prop :=
  ∀ (x y : Reg) (n : Rows) (s : State), x ≠ 15 → y ≠ 15 → n.val = 0 ∨ s.i.toNat + n.val - 1 ≤ 0xFFF →
    ∃ t u, exec (.drw x y n) s = .next t ∧ exec (.drw x y n) t = .next u ∧ u.disp = s.disp ∧
      (t.v[(15 : Reg)] = 0 → (u.v[(15 : Reg)] = 1 ↔
        ∃ row col, row < 32 ∧ col < 64 ∧ s.spriteBit s.v[x].toNat s.v[y].toNat n.val row col = true))

/-! ## The keypad -/

/-- `46_keypad.md` R176, R177: `SKP` skips when key `Vx` is down and `SKNP` when it is up; with `Vx > 15` both raise
`KeyIndexError(Vx)` and change nothing else. -/
def Obligations.KeySkipsTestTheSampledLevel : Prop :=
  ∀ (x : Reg) (s : State),
    decode (0xE09E ||| x8 x) = .ok (.skp x) ∧ decode (0xE0A1 ||| x8 x) = .ok (.sknp x) ∧
    (s.v[x].toNat ≤ 15 →
      exec (.skp x) s = .next { s with pc := if s.keysDown.getLsbD s.v[x].toNat then s.pc + 4 else s.pc + 2 } ∧
      exec (.sknp x) s = .next { s with pc := if s.keysDown.getLsbD s.v[x].toNat then s.pc + 2 else s.pc + 4 }) ∧
    (15 < s.v[x].toNat →
      exec (.skp x) s = .next { s with rs := .halted, fcause := (Fault.keyIndexError s.v[x]).code,
                                       finfo := s.v[x].setWidth 16 } ∧
      exec (.sknp x) s = .next { s with rs := .halted, fcause := (Fault.keyIndexError s.v[x]).code,
                                        finfo := s.v[x].setWidth 16 })

/-- `46_keypad.md` R178, decision D16 (the spec's own choice): with a key event `LD Vx, K` loads the key's index and runs
on; without one nothing changes but `RS`. -/
def Obligations.KeyLoadTakesTheEventOrWaits : Prop :=
  ∀ (x : Reg) (s : State),
    decode (0xF00A ||| x8 x) = .ok (.ldVxK x) ∧
    (∀ k : Key, s.keyEvent = some k → ∃ t, exec (.ldVxK x) s = .next t ∧ t.v[x].toNat = k.val ∧
      t = { s with v := s.v.set x t.v[x], rs := .running, pc := s.pc + 2 }) ∧
    (s.keyEvent = none → exec (.ldVxK x) s = .next { s with rs := .awaitingKey })

/-- `40_cycle.md` R99 and `46_keypad.md` R178, decision D16: a tick that finds an `LD Vx, K` at `PC` and samples no key event
ends, for every `IPT >= 1`, in `AwaitingKey` with `PC`, the timers and all else unchanged; only the input samples move on. -/
def Obligations.TickFreezesTheCoreWithoutAKeyEvent : Prop :=
  ∀ (x : Reg) (s : State), s.rs ≠ .halted → 1 ≤ s.ipt → s.pc.toNat % 2 = 0 → s.pc.toNat ≤ 0xFFE →
    decode (s.mem.fetch16 s.pc.toNat) = .ok (.ldVxK x) → s.nextKeySample.keyEvent = none →
    ∃ t, step s = .next t ∧ t.rs = .awaitingKey ∧
      t = { s with rs := .awaitingKey, keysDown := t.keysDown, keyEvent := none, keyInputs := t.keyInputs,
                   ticks := t.ticks }

/-- `46_keypad.md` R178, decision D16: the tick that samples the key event completes the `LD Vx, K` and performs its
`TimerStep` (one slot a tick). -/
def Obligations.TickWithTheKeyEventRunsOn : Prop :=
  ∀ (x : Reg) (k : Key) (s : State), s.rs ≠ .halted → s.ipt = 1 → s.pc.toNat % 2 = 0 → s.pc.toNat ≤ 0xFFE →
    decode (s.mem.fetch16 s.pc.toNat) = .ok (.ldVxK x) → s.nextKeySample.keyEvent = some k →
    ∃ t, step s = .next t ∧ t.v[x].toNat = k.val ∧ t.pc = s.pc + 2 ∧ t.rs = .running ∧
      t.dt.toNat = s.dt.toNat - 1 ∧ t.st.toNat = s.st.toNat - 1 ∧ t.mem = s.mem ∧ t.disp = s.disp

/-! ## Timers and random -/

/-- `47_timers_random.md` R186 to R189: the timer moves, and the random byte: `RND Vx, kk` writes the byte the port yields,
`State.nextRnd`, masked by `kk`; that byte is the first one listed, and with none listed a free value (log entry 6). One
draw is consumed, and none by any other instruction; a result never has a bit outside `kk`, whatever was drawn. -/
def Obligations.TimerMovesAndMaskedRandomByte : Prop :=
  ∀ (x : Reg) (kk : Byte) (s : State),
    (decode (0xF007 ||| x8 x) = .ok (.ldVxDt x) ∧
      exec (.ldVxDt x) s = .next { s with v := s.v.set x s.dt, pc := s.pc + 2 }) ∧
    (decode (0xF015 ||| x8 x) = .ok (.ldDtVx x) ∧
      exec (.ldDtVx x) s = .next { s with dt := s.v[x], pc := s.pc + 2 }) ∧
    (decode (0xF018 ||| x8 x) = .ok (.ldStVx x) ∧
      exec (.ldStVx x) s = .next { s with st := s.v[x], pc := s.pc + 2 }) ∧
    (decode (0xC000 ||| x8 x ||| kk.setWidth 16) = .ok (.rnd x kk) ∧
      exec (.rnd x kk) s = .next { s with v := s.v.set x (s.nextRnd &&& kk), pc := s.pc + 2,
                                          rndInputs := s.rndInputs.tail, draws := s.draws + 1 } ∧
      (s.nextRnd &&& kk) &&& ~~~kk = 0 ∧ (∀ r rs, s.rndInputs = r :: rs → s.nextRnd = r)) ∧
    (∀ (i : Instr) (t : State), (∀ x kk, i ≠ .rnd x kk) → exec i s = .next t →
      t.rndInputs = s.rndInputs ∧ t.draws = s.draws)

/-- `40_cycle.md` R100 and `47_timers_random.md` R187, R188, `10_state.md` R45 (inferences the spec marks as derived): the
tick that loads a timer decrements it before it ends, so `TONE` is seen only for a loaded value of 2 or more (one slot a
tick). -/
def Obligations.TimerLoadIsDecrementedInItsTick : Prop :=
  ∀ (x : Reg) (s : State), s.rs = .running → s.ipt = 1 → s.pc.toNat % 2 = 0 → s.pc.toNat ≤ 0xFFE →
    (decode (s.mem.fetch16 s.pc.toNat) = .ok (.ldDtVx x) →
      ∃ t, step s = .next t ∧ t.dt.toNat = s.v[x].toNat - 1 ∧ t.st.toNat = s.st.toNat - 1 ∧ t.v = s.v) ∧
    (decode (s.mem.fetch16 s.pc.toNat) = .ok (.ldStVx x) →
      ∃ t, step s = .next t ∧ t.st.toNat = s.v[x].toNat - 1 ∧ t.dt.toNat = s.dt.toNat - 1 ∧ t.v = s.v ∧
        (t.tone = true ↔ 2 ≤ s.v[x].toNat))

/-! ## The cycle -/

/-- `40_cycle.md` R92 to R94, decisions D4, D6, D10, D11 (the spec's own choices): one slot runs exactly the instruction
that the word at `PC` decodes to; an odd `PC`, then a `PC` above `0xFFE`, then an illegal word faults instead, with the
code and the information word of the fault, and nothing else changes. -/
def Obligations.SlotRunsTheDecodedInstruction : Prop :=
  ∀ s : State,
    (s.pc.toNat % 2 = 1 → instrStep s = .next { s with rs := .halted, fcause := 4, finfo := s.pc }) ∧
    (s.pc.toNat % 2 = 0 → 0xFFE < s.pc.toNat →
      instrStep s = .next { s with rs := .halted, fcause := 5, finfo := s.pc }) ∧
    (s.pc.toNat % 2 = 0 → s.pc.toNat ≤ 0xFFE →
      (∀ i, decode (s.mem.fetch16 s.pc.toNat) = .ok i → instrStep s = exec i s) ∧
      ((∀ i, decode (s.mem.fetch16 s.pc.toNat) ≠ .ok i) → instrStep s =
        .next { s with rs := .halted, fcause := 1, finfo := s.mem.fetch16 s.pc.toNat }))

/-- `40_cycle.md` R90, R99, R101 at the default `IPT = 1` (decisions D16, D17, the spec's own choices): a step samples the
key inputs, runs the decoded instruction on them, and, if the core is then running, decrements both timers, floored at 0. -/
def Obligations.StepIsSampleThenInstructionThenTimers : Prop :=
  ∀ (i : Instr) (s t : State), s.rs ≠ .halted → s.ipt = 1 → s.pc.toNat % 2 = 0 → s.pc.toNat ≤ 0xFFE →
    decode (s.mem.fetch16 s.pc.toNat) = .ok i →
    exec i { s with keysDown := s.nextKeySample.keysDown, keyEvent := s.nextKeySample.keyEvent,
                    keyInputs := s.keyInputs.tail, ticks := s.ticks + 1 } = .next t →
    ∃ u, step s = .next u ∧
      (t.rs = .running → u.dt.toNat = t.dt.toNat - 1 ∧ u.st.toNat = t.st.toNat - 1 ∧
        u = { t with dt := u.dt, st := u.st }) ∧
      (t.rs ≠ .running → u = t)

/-- `40_cycle.md` R90, R102, decision D17 (the spec's own choice): with more than one slot a tick the loop goes on while the
core runs, stops at the first slot that leaves it halted or waiting, and is followed by one `TimerStep` at most. -/
def Obligations.LaterSlotsRunWhileRunning : Prop :=
  ∀ (k : Nat) (s t : State), s.rs ≠ .halted → s.ipt = k + 2 → instrStep s.sampleKeys = .next t →
    (t.rs ≠ .running → step s = .next t) ∧
    (t.rs = .running → ∀ u, slots (k + 1) t = .next u →
      (u.rs = .running → step s = .next u.timerStep) ∧ (u.rs ≠ .running → step s = .next u))

/-- `40_cycle.md` R91, decision D23 (the spec's own choice): a tick in `Halted` changes nothing. -/
def Obligations.HaltedTickChangesNothing : Prop :=
  ∀ s : State, s.rs = .halted → step s = .next s

/-- `40_cycle.md` R96: `PC` after an instruction that does not fault, by the four classes of the rule: the target of a
control transfer, `pc0 + 4` or `pc0 + 2` of a skip, `pc0` or `pc0 + 2` of `Fx0A`, `pc0 + 2` of every other. -/
def Obligations.ProgramCounterByClass : Prop :=
  ∀ (i : Instr) (s t : State), s.rs ≠ .halted → exec i s = .next t → t.rs ≠ .halted →
    match i with
    | .ret => t.pc = s.stack.toList.getD (s.sp.val - 1) 0
    | .jp nnn => t.pc.toNat = nnn.toNat
    | .call nnn => t.pc.toNat = nnn.toNat
    | .jpV0 nnn => t.pc.toNat = nnn.toNat + s.v[(0 : Reg)].toNat
    | .seImm x kk => t.pc = if s.v[x] = kk then s.pc + 4 else s.pc + 2
    | .sneImm x kk => t.pc = if s.v[x] ≠ kk then s.pc + 4 else s.pc + 2
    | .seReg x y => t.pc = if s.v[x] = s.v[y] then s.pc + 4 else s.pc + 2
    | .sneReg x y => t.pc = if s.v[x] ≠ s.v[y] then s.pc + 4 else s.pc + 2
    | .skp x => t.pc = if s.keysDown.getLsbD s.v[x].toNat then s.pc + 4 else s.pc + 2
    | .sknp x => t.pc = if s.keysDown.getLsbD s.v[x].toNat then s.pc + 2 else s.pc + 4
    | .ldVxK _ => t.pc = if s.keyEvent = none then s.pc else s.pc + 2
    | _ => t.pc = s.pc + 2

/-! ## Rules about the whole machine -/

/-- `10_state.md` R22: exactly six instructions write `VF` as a side effect, each with 0 or 1 (with `x = 15` the arithmetic
ones leave the result instead, decision D12); every other instruction leaves `VF` unless its destination is `VF`. -/
def Obligations.OnlyFlagWritersTouchVF : Prop :=
  ∀ (i : Instr) (s t : State), exec i s = .next t →
    match i with
    | .addReg x _ | .subReg x _ | .shr x | .subnReg x _ | .shl x =>
      x ≠ 15 → t.v[(15 : Reg)] = 0 ∨ t.v[(15 : Reg)] = 1
    | .drw _ _ _ => t.v[(15 : Reg)] = 0 ∨ t.v[(15 : Reg)] = 1 ∨ t.rs = .halted ∧ t.v[(15 : Reg)] = s.v[(15 : Reg)]
    | .ldImm x _ | .addImm x _ | .ldReg x _ | .orReg x _ | .andReg x _ | .xorReg x _ | .rnd x _ | .ldVxDt x | .ldVxK x
    | .ldVxMem x => x ≠ 15 → t.v[(15 : Reg)] = s.v[(15 : Reg)]
    | _ => t.v[(15 : Reg)] = s.v[(15 : Reg)]

/-- `10_state.md` R24 to R28, R32, `20_memory.md` R54, `47_timers_random.md` R185: which instructions may write `I`, the stack,
the timers, the display, memory and the random port; no instruction writes `IPT` or the input samples. -/
def Obligations.EachRegisterHasItsWriters : Prop :=
  ∀ (i : Instr) (s t : State), exec i s = .next t →
    ((∀ nnn, i ≠ .ldI nnn) → (∀ x, i ≠ .addIVx x) → (∀ x, i ≠ .ldFVx x) → t.i = s.i) ∧
    ((∀ nnn, i ≠ .call nnn) → t.stack = s.stack ∧ (i ≠ .ret → t.sp = s.sp)) ∧
    ((∀ x, i ≠ .ldDtVx x) → t.dt = s.dt) ∧
    ((∀ x, i ≠ .ldStVx x) → t.st = s.st) ∧
    (i ≠ .cls → (∀ x y n, i ≠ .drw x y n) → t.disp = s.disp) ∧
    ((∀ x, i ≠ .ldBVx x) → (∀ x, i ≠ .ldMemVx x) → t.mem = s.mem) ∧
    ((∀ x kk, i ≠ .rnd x kk) → t.rndInputs = s.rndInputs ∧ t.draws = s.draws) ∧
    t.ipt = s.ipt ∧ t.keysDown = s.keysDown ∧ t.keyEvent = s.keyEvent ∧ t.keyInputs = s.keyInputs ∧ t.ticks = s.ticks

/-- `60_exceptions.md` R201, R203, R215, R224, decisions D9 and D10 (the spec's own choices): an instruction that halts the
core is one of the nine of R224, under its condition, with its code and information word, and writes nothing else. -/
def Obligations.FaultsArePreciseAndListed : Prop :=
  ∀ (i : Instr) (s t : State), s.rs ≠ .halted → exec i s = .next t → t.rs = .halted →
    t = { s with rs := .halted, fcause := t.fcause, finfo := t.finfo } ∧
    match i with
    | .ret => s.sp.val = 0 ∧ t.fcause = 3 ∧ t.finfo = 0
    | .call _ => s.sp.val = 16 ∧ t.fcause = 2 ∧ t.finfo = 16
    | .drw _ _ n => 1 ≤ n.val ∧ 0xFFF < s.i.toNat + n.val - 1 ∧ t.fcause = 6 ∧ t.finfo = 0x1000
    | .ldBVx _ => 0xFFF < s.i.toNat + 2 ∧ t.fcause = 6 ∧ t.finfo = 0x1000
    | .ldMemVx x => 0xFFF < s.i.toNat + x.val ∧ t.fcause = 6 ∧ t.finfo = 0x1000
    | .ldVxMem x => 0xFFF < s.i.toNat + x.val ∧ t.fcause = 6 ∧ t.finfo = 0x1000
    | .addIVx x => 0xFFF < s.i.toNat + s.v[x].toNat ∧ t.fcause = 7 ∧
        t.finfo = BitVec.ofNat 16 (s.i.toNat + s.v[x].toNat)
    | .skp x => 15 < s.v[x].toNat ∧ t.fcause = 8 ∧ t.finfo.toNat = s.v[x].toNat
    | .sknp x => 15 < s.v[x].toNat ∧ t.fcause = 8 ∧ t.finfo.toNat = s.v[x].toNat
    | _ => False

/-- `60_exceptions.md` R204 (an inference the spec marks as derived): only `JP`, `CALL` and `JP V0` can put an odd value
into an even `PC`, the entries of the stack being even. -/
def Obligations.OnlyJumpsMakeThePcOdd : Prop :=
  ∀ (i : Instr) (s t : State), s.pc.toNat % 2 = 0 → (∀ j : Fin 16, s.stack[j].toNat % 2 = 0) → exec i s = .next t →
    t.pc.toNat % 2 = 1 → ∃ nnn, i = .jp nnn ∨ i = .call nnn ∨ i = .jpV0 nnn

/-- `93_implementation_defined.md`, "Advice for the model": the step is total, with `Halted` as a sink state: from every
state, reachable or not, a step answers a next state, never an outcome that ends the run. -/
def Obligations.EveryStepAnswersANextState : Prop :=
  ∀ s : State, ∃ t, step s = .next t

/-- `10_state.md` R42 and `46_keypad.md` R175 to R178, decision D16: `KEY_EVENT` is ignored by every instruction other than
`Fx0A`, and `KEYS_DOWN` by every instruction other than `Ex9E` and `ExA1`: with another sample the instruction does the
same. -/
def Obligations.KeyInputsReachOnlyTheKeyInstructions : Prop :=
  ∀ (i : Instr) (s t : State) (e : Option Key) (d : BitVec 16), exec i s = .next t →
    ((∀ x, i ≠ .ldVxK x) → exec i { s with keyEvent := e } = .next { t with keyEvent := e }) ∧
    ((∀ x, i ≠ .skp x) → (∀ x, i ≠ .sknp x) → exec i { s with keysDown := d } = .next { t with keysDown := d })

/-- `10_state.md` R25, decision D19 (the spec's own choice): the entries of the stack at indices `>= SP` are dead: what they
hold cannot affect anything a later state shows, over any step. -/
def Obligations.DeadStackEntriesCannotBeSeen : Prop :=
  ∀ s s' t : State, sameButDeadEntries s s' → step s = .next t →
    ∃ t', step s' = .next t' ∧ sameButDeadEntries t t'

/-! ## The invariant -/

/-- `10_state.md` R35 (an inference the spec marks as derived), with R23, R25, R30 and the memory's canonical form: every
step keeps the invariant, from every state that meets it. -/
def Obligations.StepKeepsTheInvariant : Prop :=
  ∀ s t : State, s.Inv → step s = .next t → t.Inv

/-- The state after reset meets the invariant of `10_state.md` R35 (an inference the spec marks as derived), by the zeros
of reset (decisions D3 and D10, the spec's own choices; log entry 3). -/
def Obligations.ResetMeetsTheInvariant : Prop := State.reset.Inv

/-- Every reset that is not refused, with any load base, ROM, font and `IPT` of `00_scope.md` R7, meets the invariant of
`10_state.md` R35 (an inference the spec marks as derived). That it meets the bounds on `I` and the stack and has no fault
record rests on the zeros of reset (decisions D3 and D10, the spec's own choices; log entry 3). -/
def Obligations.ResetWithAnyParametersMeetsTheInvariant : Prop :=
  ∀ (p : ResetParams) (t : State), State.resetWith p = .next t → t.Inv

/-! ## Reset -/

/-- `10_state.md` R36 and R33 with the defaults of `00_scope.md` R7 (the zeros are decision D3 and the font bytes general
knowledge, by the spec's own marks; log entries 2 and 3): what reset leaves, all 80 bytes of the font among it, and that
it is the reset procedure's result. -/
def Obligations.ResetLeavesTheSpecsValues : Prop :=
  State.resetWith defaultParams = .next State.reset ∧
  State.reset.pc = 0x200 ∧ State.reset.i = 0 ∧ State.reset.sp.val = 0 ∧ State.reset.dt = 0 ∧ State.reset.st = 0 ∧
  State.reset.rs = .running ∧ State.reset.fcause = 0 ∧ State.reset.finfo = 0 ∧ State.reset.disp = 0 ∧
  State.reset.tone = false ∧ (∀ r : Reg, State.reset.v[r] = 0) ∧ (∀ j : Fin 16, State.reset.stack[j] = 0) ∧
  (∀ a, 80 ≤ a → State.reset.mem.read a = 0) ∧
  State.reset.mem.readBytes 0x000 80 =
    [0xF0, 0x90, 0x90, 0x90, 0xF0] ++ [0x20, 0x60, 0x20, 0x20, 0x70] ++
    [0xF0, 0x10, 0xF0, 0x80, 0xF0] ++ [0xF0, 0x10, 0xF0, 0x10, 0xF0] ++
    [0x90, 0x90, 0xF0, 0x10, 0x10] ++ [0xF0, 0x80, 0xF0, 0x10, 0xF0] ++
    [0xF0, 0x80, 0xF0, 0x90, 0xF0] ++ [0xF0, 0x10, 0x20, 0x40, 0x40] ++
    [0xF0, 0x90, 0xF0, 0x90, 0xF0] ++ [0xF0, 0x90, 0xF0, 0x10, 0xF0] ++
    [0xF0, 0x90, 0xF0, 0x90, 0x90] ++ [0xE0, 0x90, 0xE0, 0x90, 0xE0] ++
    [0xF0, 0x80, 0x80, 0x80, 0xF0] ++ [0xE0, 0x90, 0x90, 0x90, 0xE0] ++
    [0xF0, 0x80, 0xF0, 0x80, 0xF0] ++ [0xF0, 0x80, 0xF0, 0x80, 0x80]

/-- `10_state.md` R36 and `70_reset_and_hazards.md` R241 (the zeros are decision D3, log entry 3), for every legal load base,
ROM, font and `IPT`: the font at `0x000`, the ROM at the load base, zero elsewhere, `PC` at the load base, and every other
field as after the default reset. -/
def Obligations.ResetLaysOutFontAndRom : Prop :=
  ∀ p : ResetParams, p.wellFormed = true → ∃ t, State.resetWith p = .next t ∧ t.pc.toNat = p.loadBase ∧
    (∀ a < 80, t.mem.read a = p.font.getD a 0) ∧
    (∀ j < p.rom.length, t.mem.read (p.loadBase + j) = p.rom.getD j 0) ∧
    (∀ a, 80 ≤ a → a < p.loadBase ∨ p.loadBase + p.rom.length ≤ a → t.mem.read a = 0) ∧
    t = { State.reset with pc := t.pc, mem := t.mem, ipt := p.ipt }

/-- `60_exceptions.md` R225 and `70_reset_and_hazards.md` R242, decision D24 (the spec's own choice): a ROM longer than
`4096 - LOAD_BASE` is refused, so the largest ROM has 3584 bytes at `0x200` and 2560 bytes at `0x600`; no reset faults. -/
def Obligations.TooLargeRomIsRefused : Prop :=
  ∀ p : ResetParams, p.font.length = 80 → 1 ≤ p.ipt →
    (p.loadBase = 0x200 → 3584 < p.rom.length → State.resetWith p = .refused .romTooLarge) ∧
    (p.loadBase = 0x600 → 2560 < p.rom.length → State.resetWith p = .refused .romTooLarge) ∧
    (p.loadBase = 0x200 → p.rom.length ≤ 3584 → ∃ t, State.resetWith p = .next t) ∧
    (p.loadBase = 0x600 → p.rom.length ≤ 2560 → ∃ t, State.resetWith p = .next t)
end

