-- ==== Sys2Proof/Laws/Decode.lean ====
section
/-! SUPPORT. The fields and the fixed bits of an encoded word, part by part; the encoder's parts in the spec's own
notation; what the decoder answers where a row fits. -/

namespace Sys2Proof

/-- Every `Instr` is well-formed: its operands' types carry the ranges of R72. -/
theorem Instr.wellFormed_eq_true (i : Instr) : i.wellFormed = true := by
  cases i <;> simp only [Instr.wellFormed, Reg.inRange, Rows.inRange, Byte.inRange, Addr12.inRange, Bool.and_eq_true,
    decide_eq_true_eq] <;> omega

/-! ## The operand parts of a word: `x`, `y`, `n`, `kk`, `nnn` in their places -/

/-- `x` at bits 11:8. -/
def partX (x : Reg) : Word := (BitVec.ofFin x : BitVec 4).setWidth 16 <<< 8
/-- `y` at bits 7:4. -/
def partY (y : Reg) : Word := (BitVec.ofFin y : BitVec 4).setWidth 16 <<< 4
/-- `n` at bits 3:0. -/
def partN (n : Rows) : Word := (BitVec.ofFin n : BitVec 4).setWidth 16
/-- `kk` at bits 7:0. -/
def partKk (kk : Byte) : Word := kk.setWidth 16
/-- `nnn` at bits 11:0. -/
def partNnn (nnn : Addr12) : Word := nnn.setWidth 16

theorem wordA_eq (op : Word) (nnn : Addr12) : wordA op nnn = op ||| partNnn nnn := rfl
theorem wordXK_eq (op : Word) (x : Reg) (kk : Byte) : wordXK op x kk = op ||| partX x ||| partKk kk := rfl
theorem wordXY_eq (op : Word) (x y : Reg) : wordXY op x y = op ||| partX x ||| partY y := rfl
theorem wordX_eq (op : Word) (x : Reg) : wordX op x = op ||| partX x := rfl
theorem wordXYN_eq (op : Word) (x y : Reg) (n : Rows) : wordXYN op x y n = op ||| partX x ||| partY y ||| partN n := rfl

/-- The parts are the spec's `x<<8` and `y<<4` (the "Encoding" lines). -/
theorem partX_eq_x8 (x : Reg) : partX x = x8 x := by revert x; decide
theorem partY_eq_y4 (y : Reg) : partY y = y4 y := by revert y; decide

/-! ## Each field of each part -/

@[simp] theorem partX_x (x : Reg) : (partX x).extractLsb' 8 4 = BitVec.ofFin x := by revert x; decide
@[simp] theorem partX_y (x : Reg) : (partX x).extractLsb' 4 4 = 0 := by revert x; decide
@[simp] theorem partX_n (x : Reg) : (partX x).extractLsb' 0 4 = 0 := by revert x; decide
@[simp] theorem partX_kk (x : Reg) : (partX x).extractLsb' 0 8 = 0 := by revert x; decide
@[simp] theorem partY_x (y : Reg) : (partY y).extractLsb' 8 4 = 0 := by revert y; decide
@[simp] theorem partY_y (y : Reg) : (partY y).extractLsb' 4 4 = BitVec.ofFin y := by revert y; decide
@[simp] theorem partY_n (y : Reg) : (partY y).extractLsb' 0 4 = 0 := by revert y; decide
@[simp] theorem partN_x (n : Rows) : (partN n).extractLsb' 8 4 = 0 := by revert n; decide
@[simp] theorem partN_y (n : Rows) : (partN n).extractLsb' 4 4 = 0 := by revert n; decide
@[simp] theorem partN_n (n : Rows) : (partN n).extractLsb' 0 4 = BitVec.ofFin n := by revert n; decide

@[simp] theorem partKk_x (kk : Byte) : (partKk kk).extractLsb' 8 4 = 0 := by
  ext i hi; simp [partKk, BitVec.getLsbD_of_ge]

@[simp] theorem partKk_kk (kk : Byte) : (partKk kk).extractLsb' 0 8 = kk := by
  ext i hi; simp [partKk, hi, show i < 16 by omega]

@[simp] theorem partNnn_nnn (nnn : Addr12) : (partNnn nnn).extractLsb' 0 12 = nnn := by
  ext i hi; simp [partNnn, hi, show i < 16 by omega]

/-! ## No part reaches the bits a row fixes -/

@[simp] theorem partX_maskF000 (x : Reg) : partX x &&& 0xF000#16 = 0#16 := by revert x; decide
@[simp] theorem partX_maskF00F (x : Reg) : partX x &&& 0xF00F#16 = 0#16 := by revert x; decide
@[simp] theorem partX_maskF0FF (x : Reg) : partX x &&& 0xF0FF#16 = 0#16 := by revert x; decide
@[simp] theorem partY_maskF000 (y : Reg) : partY y &&& 0xF000#16 = 0#16 := by revert y; decide
@[simp] theorem partY_maskF00F (y : Reg) : partY y &&& 0xF00F#16 = 0#16 := by revert y; decide
@[simp] theorem partN_maskF000 (n : Rows) : partN n &&& 0xF000#16 = 0#16 := by revert n; decide

@[simp] theorem partKk_maskF000 (kk : Byte) : partKk kk &&& 0xF000#16 = 0#16 := by
  ext i hi; interval_cases i <;> simp [partKk]

@[simp] theorem partNnn_maskF000 (nnn : Addr12) : partNnn nnn &&& 0xF000#16 = 0#16 := by
  ext i hi; interval_cases i <;> simp [partNnn]

/-! ## The decoder -/

/-- A decoded word is the build of a row of the table that fits it. -/
theorem decode_ok {w : Word} {i : Instr} (h : decode w = .ok i) :
    ∃ r ∈ opcodeTable, r.fits w = true ∧ r.build w = i := by
  unfold decode at h
  split at h
  · next r hr => exact ⟨r, List.mem_of_find?_eq_some hr, by simpa using List.find?_some (p := fun r : OpcodeRow => r.fits w) hr, by simpa using h⟩
  · simp at h

/-- A word the decoder rejects fits no row of the table, and the rejection names the word. -/
theorem decode_error {w : Word} {e : DecodeReject} (h : decode w = .error e) :
    e = .illegal w ∧ ∀ r ∈ opcodeTable, r.fits w = false := by
  unfold decode at h
  split at h
  · simp at h
  · next hn => exact ⟨by simpa using h.symm, by simpa using hn⟩

/-- The first row that fits decides. -/
theorem decode_of_find {w : Word} {r : OpcodeRow} (h : opcodeTable.find? (·.fits w) = some r) :
    decode w = .ok (r.build w) := by
  unfold decode; rw [h]

/-- Two bytes in memory order decode as their word. -/
theorem decodeBytes_pair (hi lo : Byte) (rest : List Byte) :
    decodeBytes (hi :: lo :: rest) = (decode (wordOfBytes hi lo)).map fun i => (i, rest) := rfl

end Sys2Proof
end

