-- ==== Sys2Proof/Laws/Memory.lean ====
section
/-! SUPPORT. The memory: a read after a write, a write keeps the canonical form, equal reads are equal data. -/

namespace Sys2Proof.Machine.Memory

@[simp] theorem read_nil (a : Nat) : Memory.read [] a = Memory.unlisted a := rfl

theorem read_cell (b : Nat) (u : Byte) (rest : Memory) (a : Nat) :
    Memory.read ((b, u) :: rest) a = if a = b then u else Memory.read rest a := rfl

/-! ## The canonical form -/

theorem wfFrom_cell {lo b : Nat} {u : Byte} {rest : Memory} :
    wfFrom lo ((b, u) :: rest) = true ↔
      (lo ≤ b ∧ b < 4096 ∧ u ≠ Memory.unlisted b) ∧ wfFrom (b + 1) rest = true := by
  simp [wfFrom]

/-- The empty list is in canonical form: the memory of `State.reset`. -/
@[simp] theorem wf_nil : Memory.wf [] = true := rfl

/-- The form from one bound is the form from every lower bound. -/
theorem wfFrom_mono {lo hi : Nat} (h : lo ≤ hi) : ∀ {m : Memory}, wfFrom hi m = true → wfFrom lo m = true
  | [], _ => rfl
  | (_, _) :: _, hm => by
    rw [wfFrom_cell] at hm ⊢
    exact ⟨⟨h.trans hm.1.1, hm.1.2⟩, hm.2⟩

/-- An address below the bound of a canonical list is unlisted. -/
theorem read_below {lo a : Nat} (h : a < lo) : ∀ {m : Memory}, wfFrom lo m = true → m.read a = unlisted a
  | [], _ => rfl
  | (b, u) :: rest, hm => by
    rw [wfFrom_cell] at hm
    have hb : a ≠ b := by omega
    rw [read_cell, if_neg hb]
    exact read_below (by omega) hm.2

/-! ## One byte written -/

/-- A cell put in front, listed or not, reads as its byte at its address. -/
theorem read_cons_same {a : Nat} {w : Byte} {rest : Memory} (h : wfFrom (a + 1) rest = true) :
    (Memory.cons a w rest).read a = w := by
  unfold Memory.cons
  split
  · next hw => rw [hw]; exact read_below (Nat.lt_succ_self a) h
  · rw [read_cell, if_pos rfl]

/-- A cell put in front changes no other address. -/
theorem read_cons_other {a b : Nat} {w : Byte} {rest : Memory} (h : b ≠ a) :
    (Memory.cons a w rest).read b = rest.read b := by
  unfold Memory.cons
  split
  · rfl
  · rw [read_cell, if_neg h]

theorem wfFrom_cons {lo a : Nat} {w : Byte} {rest : Memory} (hl : lo ≤ a) (ha : a < 4096)
    (h : wfFrom (a + 1) rest = true) : wfFrom lo (Memory.cons a w rest) = true := by
  unfold Memory.cons
  split
  · exact wfFrom_mono (by omega) h
  · next hw => exact wfFrom_cell.2 ⟨⟨hl, ha, hw⟩, h⟩

/-- A write leaves every other address as it was, in any list (R57, R60). -/
theorem read_write_other {a b : Nat} {w : Byte} (h : b ≠ a) : ∀ {m : Memory}, (m.write a w).read b = m.read b
  | [] => read_cons_other h
  | (c, u) :: rest => by
    unfold Memory.write
    split
    · exact read_cons_other h
    · split
      · next hc => rw [read_cons_other h, read_cell, if_neg (by omega)]
      · rw [read_cell, read_cell, read_write_other h]

/-- A write within the address space keeps the canonical form. -/
theorem wfFrom_write {lo a : Nat} {w : Byte} (hl : lo ≤ a) (ha : a < 4096) :
    ∀ {m : Memory}, wfFrom lo m = true → wfFrom lo (m.write a w) = true
  | [], _ => wfFrom_cons hl ha rfl
  | (c, u) :: rest, hm => by
    rw [wfFrom_cell] at hm
    unfold Memory.write
    split
    · next hac => exact wfFrom_cons hl ha (wfFrom_cell.2 ⟨⟨by omega, hm.1.2⟩, hm.2⟩)
    · split
      · next hac => subst hac; exact wfFrom_cons hl ha hm.2
      · exact wfFrom_cell.2 ⟨hm.1, wfFrom_write (by omega) ha hm.2⟩

/-- A canonical memory reads a written byte back at its address (R61). -/
theorem read_write_same_from {lo a : Nat} {w : Byte} :
    ∀ {m : Memory}, wfFrom lo m = true → (m.write a w).read a = w
  | [], _ => read_cons_same rfl
  | (c, u) :: rest, hm => by
    rw [wfFrom_cell] at hm
    unfold Memory.write
    split
    · next hac => exact read_cons_same (wfFrom_cell.2 ⟨⟨by omega, hm.1.2⟩, hm.2⟩)
    · split
      · next hac => subst hac; exact read_cons_same hm.2
      · next hlt hne =>
        rw [read_cell, if_neg hne]
        exact read_write_same_from hm.2

/-- A canonical memory reads a written byte back at its address (R61). -/
theorem read_write_same {m : Memory} {a : Nat} {w : Byte} (h : m.wf = true) : (m.write a w).read a = w :=
  read_write_same_from h

/-- A write within the address space keeps the canonical form. -/
theorem wf_write {m : Memory} {a : Nat} {w : Byte} (ha : a < 4096) (h : m.wf = true) : (m.write a w).wf = true :=
  wfFrom_write (Nat.zero_le a) ha h

/-! ## Several bytes written -/

/-- Bytes written from `a` on leave every address outside them as it was. -/
theorem read_writeBytes_other : ∀ {ws : List Byte} {m : Memory} {a b : Nat}, (b < a ∨ a + ws.length ≤ b) →
    (m.writeBytes a ws).read b = m.read b
  | [], _, _, _, _ => rfl
  | w :: ws, m, a, b, h => by
    rw [List.length_cons] at h
    rw [Memory.writeBytes, read_writeBytes_other (by omega), read_write_other (by omega)]

/-- Bytes written within the address space keep the canonical form. -/
theorem wf_writeBytes : ∀ {ws : List Byte} {m : Memory} {a : Nat}, a + ws.length ≤ 4096 → m.wf = true →
    (m.writeBytes a ws).wf = true
  | [], _, _, _, h => h
  | w :: ws, m, a, hl, h => by
    rw [List.length_cons] at hl
    rw [Memory.writeBytes]
    exact wf_writeBytes (by omega) (wf_write (by omega) h)

/-- A canonical memory reads the k-th of the bytes written from `a` on at `a + k`. -/
theorem read_writeBytes : ∀ {ws : List Byte} {m : Memory} {a k : Nat} (hk : k < ws.length), a + ws.length ≤ 4096 →
    m.wf = true → (m.writeBytes a ws).read (a + k) = ws[k]
  | w :: ws, m, a, 0, _, hl, h => by
    rw [List.length_cons] at hl
    rw [Memory.writeBytes, read_writeBytes_other (by omega)]
    exact read_write_same h
  | w :: ws, m, a, k + 1, hk, hl, h => by
    rw [List.length_cons] at hl hk
    rw [Memory.writeBytes, show a + (k + 1) = a + 1 + k by omega,
      read_writeBytes (by omega) (by omega) (wf_write (by omega) h), List.getElem_cons_succ]

/-! ## Equal reads are equal data -/

theorem ext_from : ∀ {lo : Nat} {m m' : Memory}, wfFrom lo m = true → wfFrom lo m' = true →
    (∀ a, m.read a = m'.read a) → m = m'
  | _, [], [], _, _, _ => rfl
  | _, [], (b, u) :: rest, _, h', he => by
    rw [wfFrom_cell] at h'
    have := he b
    rw [read_nil, read_cell, if_pos rfl] at this
    exact absurd this.symm h'.1.2.2
  | _, (b, u) :: rest, [], h, _, he => by
    rw [wfFrom_cell] at h
    have := he b
    rw [read_nil, read_cell, if_pos rfl] at this
    exact absurd this h.1.2.2
  | lo, (b, u) :: rest, (c, v) :: rest', h, h', he => by
    have hw := h
    have hw' := h'
    rw [wfFrom_cell] at h h'
    have hbc : b = c := by
      rcases Nat.lt_trichotomy b c with hlt | heq | hgt
      · have := he b
        rw [read_cell, if_pos rfl, read_below hlt (wfFrom_cell.2 ⟨⟨le_refl c, h'.1.2⟩, h'.2⟩)] at this
        exact absurd this h.1.2.2
      · exact heq
      · have := he c
        rw [read_below hgt (wfFrom_cell.2 ⟨⟨le_refl b, h.1.2⟩, h.2⟩), read_cell, if_pos rfl] at this
        exact absurd this.symm h'.1.2.2
    subst hbc
    have huv : u = v := by simpa [read_cell] using he b
    subst huv
    congr 1
    refine ext_from h.2 h'.2 fun a => ?_
    by_cases hab : a ≤ b
    · rw [read_below (by omega) h.2, read_below (by omega) h'.2]
    · have := he a
      rwa [read_cell, read_cell, if_neg (by omega), if_neg (by omega)] at this

/-- Two canonical memories that read the same at every address are the same list. -/
theorem ext {m m' : Memory} (h : m.wf = true) (h' : m'.wf = true) (he : ∀ a, m.read a = m'.read a) : m = m' :=
  ext_from h h' he

/-! ## Reading several bytes -/

@[simp] theorem length_readBytes (m : Memory) (a n : Nat) : (m.readBytes a n).length = n := by simp [readBytes]

/-- The k-th of the bytes from `a` on is the byte at `a + k`. -/
theorem getElem_readBytes (m : Memory) (a n k : Nat) (h : k < (m.readBytes a n).length) :
    (m.readBytes a n)[k] = m.read (a + k) := by simp [readBytes]

/-- The fetched word has the byte at the lower address as its high byte (R51, R52). -/
theorem toNat_fetch16 (m : Memory) (a : Nat) :
    (m.fetch16 a).toNat = 256 * (m.read a).toNat + (m.read (a + 1)).toNat := by
  have h1 := (m.read (a + 1)).isLt
  have := Nat.two_pow_add_eq_or_of_lt (i := 8) h1 (m.read a).toNat
  simp only [fetch16, BitVec.toNat_append, Nat.shiftLeft_eq, Nat.mul_comm (m.read a).toNat]
  omega

end Sys2Proof.Machine.Memory
end

