-- ==== Sys2Proof/Laws/Display.lean ====
section
/-! SUPPORT. What drawing does, pixel by pixel: the loops of `45_display.md` R167 in closed form. -/

namespace Sys2Proof.Machine

/-! ## One pixel -/

/-- Two pixels of the grid share an index only if they are the same pixel (R165). -/
theorem pixel_index_inj {r c r' c' : Nat} (hc : c < 64) (hc' : c' < 64) :
    r * 64 + c = r' * 64 + c' ↔ r = r' ∧ c = c' := by omega

/-- A sprite bit of 1 inside the grid flips its own pixel; every other pixel of the grid is left. -/
theorem drawPixel_disp {px py r c : Nat} {bit : Bool} {acc : Display × Bool} (hr : r < 32) (hc : c < 64) :
    (drawPixel px py bit acc).1.getLsbD (r * 64 + c) =
      (acc.1.getLsbD (r * 64 + c) ^^ (bit && decide (py = r ∧ px = c))) := by
  unfold drawPixel
  split
  · have : ¬(py = r ∧ px = c) := by omega
    simp [this]
  · split
    · next hin hb =>
      have h1 : py * 64 + px < 2048 := by omega
      have hi : py * 64 + px = r * 64 + c ↔ py = r ∧ px = c := pixel_index_inj (by omega) hc
      simp [BitVec.getLsbD_twoPow, h1, hb, hi]
    · next hb => simp [hb]

/-- The collision latch is set by an erased pixel inside the grid, and never cleared (R168). -/
theorem drawPixel_latch {px py : Nat} {bit : Bool} {acc : Display × Bool} :
    (drawPixel px py bit acc).2 = true ↔
      acc.2 = true ∨ (py < 32 ∧ px < 64 ∧ bit = true ∧ acc.1.getLsbD (py * 64 + px) = true) := by
  unfold drawPixel
  split
  · constructor
    · exact Or.inl
    · rintro (h | h)
      · exact h
      · omega
  · next hin =>
    split
    · next hb =>
      simp only [Bool.or_eq_true]
      exact or_congr_right ⟨fun h => ⟨by omega, by omega, hb, h⟩, fun h => h.2.2.2⟩
    · next hb => simp [hb]

/-! ## One row -/

/-- The first `k` pixels of a sprite row. -/
def drawCols (vx py : Nat) (b : Byte) (k : Nat) (acc : Display × Bool) : Display × Bool :=
  (List.range k).foldl (fun acc col => drawPixel (vx + col) py (b.getLsbD (7 - col)) acc) acc

theorem drawCols_succ (vx py : Nat) (b : Byte) (k : Nat) (acc : Display × Bool) :
    drawCols vx py b (k + 1) acc = drawPixel (vx + k) py (b.getLsbD (7 - k)) (drawCols vx py b k acc) := by
  simp [drawCols, List.range_succ]

/-- The sprite bit over column `c` among the first `k` of a row that starts at column `vx`. -/
def rowBit (vx : Nat) (b : Byte) (k c : Nat) : Bool := decide (vx ≤ c ∧ c < vx + k) && b.getLsbD (7 - (c - vx))

theorem rowBit_succ (vx : Nat) (b : Byte) (k c : Nat) :
    rowBit vx b (k + 1) c = (rowBit vx b k c ^^ (b.getLsbD (7 - k) && decide (vx + k = c))) := by
  unfold rowBit
  by_cases h : vx + k = c
  · subst h; simp
  · have : (vx ≤ c ∧ c < vx + (k + 1)) ↔ (vx ≤ c ∧ c < vx + k) := by omega
    simp [h, this]

theorem drawCols_disp {vx py r c : Nat} {b : Byte} {acc : Display × Bool} (hr : r < 32) (hc : c < 64) (k : Nat) :
    (drawCols vx py b k acc).1.getLsbD (r * 64 + c) =
      (acc.1.getLsbD (r * 64 + c) ^^ (decide (py = r) && rowBit vx b k c)) := by
  induction k with
  | zero =>
    have : ¬(vx ≤ c ∧ c < vx) := by omega
    simp [drawCols, rowBit, this]
  | succ k ih =>
    rw [drawCols_succ, drawPixel_disp hr hc, ih, rowBit_succ, Bool.decide_and]
    cases decide (py = r) <;> simp

theorem drawCols_latch {vx py : Nat} {b : Byte} {acc : Display × Bool} (k : Nat) :
    (drawCols vx py b k acc).2 = true ↔
      acc.2 = true ∨ ∃ c, py < 32 ∧ c < 64 ∧ rowBit vx b k c = true ∧ acc.1.getLsbD (py * 64 + c) = true := by
  induction k with
  | zero =>
    constructor
    · exact Or.inl
    · rintro (h | ⟨c, -, -, h, -⟩)
      · exact h
      · simp only [rowBit, Bool.and_eq_true, decide_eq_true_eq] at h; omega
  | succ k ih =>
    rw [drawCols_succ, drawPixel_latch, ih, or_assoc]
    refine or_congr_right ?_
    have hfree : rowBit vx b k (vx + k) = false := by simp [rowBit]
    constructor
    · rintro (⟨c, h1, h2, h3, h4⟩ | ⟨h1, h2, h3, h4⟩)
      · refine ⟨c, h1, h2, ?_, h4⟩
        simp only [rowBit, Bool.and_eq_true, decide_eq_true_eq] at h3 ⊢
        exact ⟨by omega, h3.2⟩
      · rw [drawCols_disp h1 h2, hfree] at h4
        exact ⟨vx + k, h1, h2, by rw [rowBit_succ, hfree]; simp [h3], by simpa using h4⟩
    · rintro ⟨c, h1, h2, h3, h4⟩
      by_cases hck : vx + k = c
      · subst hck
        refine Or.inr ⟨h1, h2, ?_, ?_⟩
        · simpa [rowBit_succ, hfree] using h3
        · rw [drawCols_disp h1 h2, hfree]; simpa using h4
      · exact Or.inl ⟨c, h1, h2, by simpa [rowBit_succ, hck] using h3, h4⟩

/-- One sprite row, on the display: the pixels of row `py` are flipped where the row's bits are 1. -/
theorem drawRow_disp {vx py r c : Nat} {b : Byte} {acc : Display × Bool} (hr : r < 32) (hc : c < 64) :
    (drawRow vx py b acc).1.getLsbD (r * 64 + c) =
      (acc.1.getLsbD (r * 64 + c) ^^ (decide (py = r) && rowBit vx b 8 c)) := drawCols_disp hr hc 8

/-- One sprite row, on the latch. -/
theorem drawRow_latch {vx py : Nat} {b : Byte} {acc : Display × Bool} :
    (drawRow vx py b acc).2 = true ↔
      acc.2 = true ∨ ∃ c, py < 32 ∧ c < 64 ∧ rowBit vx b 8 c = true ∧ acc.1.getLsbD (py * 64 + c) = true :=
  drawCols_latch 8

/-! ## The sprite -/

/-- The sprite bit over pixel `(r, c)` of the rows that start at row `vy`. -/
def rowsBit (vx vy : Nat) (rows : List Byte) (r c : Nat) : Bool :=
  decide (vy ≤ r ∧ r < vy + rows.length) && rowBit vx (rows.getD (r - vy) 0) 8 c

theorem rowsBit_nil (vx vy r c : Nat) : rowsBit vx vy [] r c = false := by
  have : ¬(vy ≤ r ∧ r < vy) := by omega
  simp [rowsBit, this]

theorem rowsBit_cons (vx vy : Nat) (b : Byte) (rows : List Byte) (r c : Nat) :
    rowsBit vx vy (b :: rows) r c = ((decide (vy = r) && rowBit vx b 8 c) ^^ rowsBit vx (vy + 1) rows r c) := by
  unfold rowsBit
  by_cases h : vy = r
  · subst h; simp
  · rcases Nat.lt_or_ge r vy with hlt | hge
    · have h1 : ¬ vy ≤ r := by omega
      have h2 : ¬ vy + 1 ≤ r := by omega
      simp [h, h1, h2]
    · have hs : r - vy = (r - (vy + 1)) + 1 := by omega
      have hr : (vy ≤ r ∧ r < vy + (b :: rows).length) ↔ (vy + 1 ≤ r ∧ r < vy + 1 + rows.length) := by
        rw [List.length_cons]; omega
      rw [hs, List.getD_cons_succ, decide_eq_false h, Bool.false_and, Bool.false_xor, decide_eq_decide.2 hr]

/-- The drawn display: a pixel of the grid is flipped exactly where the sprite bit over it is 1 (R167, R169). -/
theorem drawSprite_disp {vx r c : Nat} (hr : r < 32) (hc : c < 64) :
    ∀ {rows : List Byte} {vy : Nat} {acc : Display × Bool},
      (drawSprite vx vy rows acc).1.getLsbD (r * 64 + c) =
        (acc.1.getLsbD (r * 64 + c) ^^ rowsBit vx vy rows r c)
  | [], vy, acc => by simp [drawSprite, rowsBit_nil]
  | b :: rows, vy, acc => by
    rw [drawSprite, drawSprite_disp hr hc, drawRow_disp hr hc, rowsBit_cons, Bool.xor_assoc]

/-- The collision latch: set if it was set, or if a pixel of the grid was 1 under a sprite bit of 1 (R168). -/
theorem drawSprite_latch {vx : Nat} : ∀ {rows : List Byte} {vy : Nat} {acc : Display × Bool},
    (drawSprite vx vy rows acc).2 = true ↔
      acc.2 = true ∨ ∃ r c, r < 32 ∧ c < 64 ∧ rowsBit vx vy rows r c = true ∧ acc.1.getLsbD (r * 64 + c) = true
  | [], vy, acc => by simp [drawSprite, rowsBit_nil]
  | b :: rows, vy, acc => by
    rw [drawSprite, drawSprite_latch, drawRow_latch, or_assoc]
    refine or_congr_right ?_
    have hfree : ∀ c, rowsBit vx (vy + 1) rows vy c = false := by
      intro c
      have : ¬(vy + 1 ≤ vy ∧ vy < vy + 1 + rows.length) := by omega
      unfold rowsBit
      rw [decide_eq_false this, Bool.false_and]
    constructor
    · rintro (⟨c, h1, h2, h3, h4⟩ | ⟨r, c, h1, h2, h3, h4⟩)
      · exact ⟨vy, c, h1, h2, by rw [rowsBit_cons, hfree]; simp [h3], h4⟩
      · have hne : vy ≠ r := by rintro rfl; simp [hfree] at h3
        rw [drawRow_disp h1 h2, decide_eq_false hne] at h4
        exact ⟨r, c, h1, h2, by rw [rowsBit_cons, decide_eq_false hne]; simpa using h3, by simpa using h4⟩
    · rintro ⟨r, c, h1, h2, h3, h4⟩
      by_cases hvr : vy = r
      · subst hvr
        rw [rowsBit_cons, hfree] at h3
        exact Or.inl ⟨c, h1, h2, by simpa using h3, h4⟩
      · rw [rowsBit_cons, decide_eq_false hvr] at h3
        refine Or.inr ⟨r, c, h1, h2, by simpa using h3, ?_⟩
        rw [drawRow_disp h1 h2, decide_eq_false hvr]; simpa using h4

end Sys2Proof.Machine
end

