-- ==== Sys2Proof/Laws/State.lean ====
section
/-! SUPPORT. What each named update of the state leaves in each field: one lemma per field per update. -/

namespace Sys2Proof.Machine.State

variable (s : State)

/-! ## The updates that are other updates under a name -/

@[simp] theorem advance_eq : s.advance = s.setPc (s.pc + 2) := rfl
@[simp] theorem skipIf_eq (c : Bool) : s.skipIf c = s.setPc (if c then s.pc + 4 else s.pc + 2) := rfl
@[simp] theorem setFlagThenReg_eq (f : Byte) (x : Reg) (b : Byte) :
    s.setFlagThenReg f x b = (s.setReg VF f).setReg x b := rfl
@[simp] theorem drop_sp_val : s.drop.sp.val = s.sp.val - 1 := rfl

/-! ## setReg -/

@[simp] theorem setReg_v (x : Reg) (b : Byte) : (s.setReg x b).v = s.v.set x b := rfl
@[simp] theorem setReg_pc (x : Reg) (b : Byte) : (s.setReg x b).pc = s.pc := rfl
@[simp] theorem setReg_i (x : Reg) (b : Byte) : (s.setReg x b).i = s.i := rfl
@[simp] theorem setReg_stack (x : Reg) (b : Byte) : (s.setReg x b).stack = s.stack := rfl
@[simp] theorem setReg_sp (x : Reg) (b : Byte) : (s.setReg x b).sp = s.sp := rfl
@[simp] theorem setReg_dt (x : Reg) (b : Byte) : (s.setReg x b).dt = s.dt := rfl
@[simp] theorem setReg_st (x : Reg) (b : Byte) : (s.setReg x b).st = s.st := rfl
@[simp] theorem setReg_rs (x : Reg) (b : Byte) : (s.setReg x b).rs = s.rs := rfl
@[simp] theorem setReg_fcause (x : Reg) (b : Byte) : (s.setReg x b).fcause = s.fcause := rfl
@[simp] theorem setReg_finfo (x : Reg) (b : Byte) : (s.setReg x b).finfo = s.finfo := rfl
@[simp] theorem setReg_mem (x : Reg) (b : Byte) : (s.setReg x b).mem = s.mem := rfl
@[simp] theorem setReg_disp (x : Reg) (b : Byte) : (s.setReg x b).disp = s.disp := rfl
@[simp] theorem setReg_ipt (x : Reg) (b : Byte) : (s.setReg x b).ipt = s.ipt := rfl
@[simp] theorem setReg_keysDown (x : Reg) (b : Byte) : (s.setReg x b).keysDown = s.keysDown := rfl
@[simp] theorem setReg_keyEvent (x : Reg) (b : Byte) : (s.setReg x b).keyEvent = s.keyEvent := rfl
@[simp] theorem setReg_keyInputs (x : Reg) (b : Byte) : (s.setReg x b).keyInputs = s.keyInputs := rfl
@[simp] theorem setReg_ticks (x : Reg) (b : Byte) : (s.setReg x b).ticks = s.ticks := rfl
@[simp] theorem setReg_rndInputs (x : Reg) (b : Byte) : (s.setReg x b).rndInputs = s.rndInputs := rfl
@[simp] theorem setReg_draws (x : Reg) (b : Byte) : (s.setReg x b).draws = s.draws := rfl

/-! ## setRegs -/

@[simp] theorem setRegs_v (w : Vector Byte 16) : (s.setRegs w).v = w := rfl
@[simp] theorem setRegs_pc (w : Vector Byte 16) : (s.setRegs w).pc = s.pc := rfl
@[simp] theorem setRegs_i (w : Vector Byte 16) : (s.setRegs w).i = s.i := rfl
@[simp] theorem setRegs_stack (w : Vector Byte 16) : (s.setRegs w).stack = s.stack := rfl
@[simp] theorem setRegs_sp (w : Vector Byte 16) : (s.setRegs w).sp = s.sp := rfl
@[simp] theorem setRegs_dt (w : Vector Byte 16) : (s.setRegs w).dt = s.dt := rfl
@[simp] theorem setRegs_st (w : Vector Byte 16) : (s.setRegs w).st = s.st := rfl
@[simp] theorem setRegs_rs (w : Vector Byte 16) : (s.setRegs w).rs = s.rs := rfl
@[simp] theorem setRegs_fcause (w : Vector Byte 16) : (s.setRegs w).fcause = s.fcause := rfl
@[simp] theorem setRegs_finfo (w : Vector Byte 16) : (s.setRegs w).finfo = s.finfo := rfl
@[simp] theorem setRegs_mem (w : Vector Byte 16) : (s.setRegs w).mem = s.mem := rfl
@[simp] theorem setRegs_disp (w : Vector Byte 16) : (s.setRegs w).disp = s.disp := rfl
@[simp] theorem setRegs_ipt (w : Vector Byte 16) : (s.setRegs w).ipt = s.ipt := rfl
@[simp] theorem setRegs_keysDown (w : Vector Byte 16) : (s.setRegs w).keysDown = s.keysDown := rfl
@[simp] theorem setRegs_keyEvent (w : Vector Byte 16) : (s.setRegs w).keyEvent = s.keyEvent := rfl
@[simp] theorem setRegs_keyInputs (w : Vector Byte 16) : (s.setRegs w).keyInputs = s.keyInputs := rfl
@[simp] theorem setRegs_ticks (w : Vector Byte 16) : (s.setRegs w).ticks = s.ticks := rfl
@[simp] theorem setRegs_rndInputs (w : Vector Byte 16) : (s.setRegs w).rndInputs = s.rndInputs := rfl
@[simp] theorem setRegs_draws (w : Vector Byte 16) : (s.setRegs w).draws = s.draws := rfl

/-! ## setPc -/

@[simp] theorem setPc_v (a : Word) : (s.setPc a).v = s.v := rfl
@[simp] theorem setPc_pc (a : Word) : (s.setPc a).pc = a := rfl
@[simp] theorem setPc_i (a : Word) : (s.setPc a).i = s.i := rfl
@[simp] theorem setPc_stack (a : Word) : (s.setPc a).stack = s.stack := rfl
@[simp] theorem setPc_sp (a : Word) : (s.setPc a).sp = s.sp := rfl
@[simp] theorem setPc_dt (a : Word) : (s.setPc a).dt = s.dt := rfl
@[simp] theorem setPc_st (a : Word) : (s.setPc a).st = s.st := rfl
@[simp] theorem setPc_rs (a : Word) : (s.setPc a).rs = s.rs := rfl
@[simp] theorem setPc_fcause (a : Word) : (s.setPc a).fcause = s.fcause := rfl
@[simp] theorem setPc_finfo (a : Word) : (s.setPc a).finfo = s.finfo := rfl
@[simp] theorem setPc_mem (a : Word) : (s.setPc a).mem = s.mem := rfl
@[simp] theorem setPc_disp (a : Word) : (s.setPc a).disp = s.disp := rfl
@[simp] theorem setPc_ipt (a : Word) : (s.setPc a).ipt = s.ipt := rfl
@[simp] theorem setPc_keysDown (a : Word) : (s.setPc a).keysDown = s.keysDown := rfl
@[simp] theorem setPc_keyEvent (a : Word) : (s.setPc a).keyEvent = s.keyEvent := rfl
@[simp] theorem setPc_keyInputs (a : Word) : (s.setPc a).keyInputs = s.keyInputs := rfl
@[simp] theorem setPc_ticks (a : Word) : (s.setPc a).ticks = s.ticks := rfl
@[simp] theorem setPc_rndInputs (a : Word) : (s.setPc a).rndInputs = s.rndInputs := rfl
@[simp] theorem setPc_draws (a : Word) : (s.setPc a).draws = s.draws := rfl

/-! ## setI -/

@[simp] theorem setI_v (a : Word) : (s.setI a).v = s.v := rfl
@[simp] theorem setI_pc (a : Word) : (s.setI a).pc = s.pc := rfl
@[simp] theorem setI_i (a : Word) : (s.setI a).i = a := rfl
@[simp] theorem setI_stack (a : Word) : (s.setI a).stack = s.stack := rfl
@[simp] theorem setI_sp (a : Word) : (s.setI a).sp = s.sp := rfl
@[simp] theorem setI_dt (a : Word) : (s.setI a).dt = s.dt := rfl
@[simp] theorem setI_st (a : Word) : (s.setI a).st = s.st := rfl
@[simp] theorem setI_rs (a : Word) : (s.setI a).rs = s.rs := rfl
@[simp] theorem setI_fcause (a : Word) : (s.setI a).fcause = s.fcause := rfl
@[simp] theorem setI_finfo (a : Word) : (s.setI a).finfo = s.finfo := rfl
@[simp] theorem setI_mem (a : Word) : (s.setI a).mem = s.mem := rfl
@[simp] theorem setI_disp (a : Word) : (s.setI a).disp = s.disp := rfl
@[simp] theorem setI_ipt (a : Word) : (s.setI a).ipt = s.ipt := rfl
@[simp] theorem setI_keysDown (a : Word) : (s.setI a).keysDown = s.keysDown := rfl
@[simp] theorem setI_keyEvent (a : Word) : (s.setI a).keyEvent = s.keyEvent := rfl
@[simp] theorem setI_keyInputs (a : Word) : (s.setI a).keyInputs = s.keyInputs := rfl
@[simp] theorem setI_ticks (a : Word) : (s.setI a).ticks = s.ticks := rfl
@[simp] theorem setI_rndInputs (a : Word) : (s.setI a).rndInputs = s.rndInputs := rfl
@[simp] theorem setI_draws (a : Word) : (s.setI a).draws = s.draws := rfl

/-! ## setDt -/

@[simp] theorem setDt_v (b : Byte) : (s.setDt b).v = s.v := rfl
@[simp] theorem setDt_pc (b : Byte) : (s.setDt b).pc = s.pc := rfl
@[simp] theorem setDt_i (b : Byte) : (s.setDt b).i = s.i := rfl
@[simp] theorem setDt_stack (b : Byte) : (s.setDt b).stack = s.stack := rfl
@[simp] theorem setDt_sp (b : Byte) : (s.setDt b).sp = s.sp := rfl
@[simp] theorem setDt_dt (b : Byte) : (s.setDt b).dt = b := rfl
@[simp] theorem setDt_st (b : Byte) : (s.setDt b).st = s.st := rfl
@[simp] theorem setDt_rs (b : Byte) : (s.setDt b).rs = s.rs := rfl
@[simp] theorem setDt_fcause (b : Byte) : (s.setDt b).fcause = s.fcause := rfl
@[simp] theorem setDt_finfo (b : Byte) : (s.setDt b).finfo = s.finfo := rfl
@[simp] theorem setDt_mem (b : Byte) : (s.setDt b).mem = s.mem := rfl
@[simp] theorem setDt_disp (b : Byte) : (s.setDt b).disp = s.disp := rfl
@[simp] theorem setDt_ipt (b : Byte) : (s.setDt b).ipt = s.ipt := rfl
@[simp] theorem setDt_keysDown (b : Byte) : (s.setDt b).keysDown = s.keysDown := rfl
@[simp] theorem setDt_keyEvent (b : Byte) : (s.setDt b).keyEvent = s.keyEvent := rfl
@[simp] theorem setDt_keyInputs (b : Byte) : (s.setDt b).keyInputs = s.keyInputs := rfl
@[simp] theorem setDt_ticks (b : Byte) : (s.setDt b).ticks = s.ticks := rfl
@[simp] theorem setDt_rndInputs (b : Byte) : (s.setDt b).rndInputs = s.rndInputs := rfl
@[simp] theorem setDt_draws (b : Byte) : (s.setDt b).draws = s.draws := rfl

/-! ## setSt -/

@[simp] theorem setSt_v (b : Byte) : (s.setSt b).v = s.v := rfl
@[simp] theorem setSt_pc (b : Byte) : (s.setSt b).pc = s.pc := rfl
@[simp] theorem setSt_i (b : Byte) : (s.setSt b).i = s.i := rfl
@[simp] theorem setSt_stack (b : Byte) : (s.setSt b).stack = s.stack := rfl
@[simp] theorem setSt_sp (b : Byte) : (s.setSt b).sp = s.sp := rfl
@[simp] theorem setSt_dt (b : Byte) : (s.setSt b).dt = s.dt := rfl
@[simp] theorem setSt_st (b : Byte) : (s.setSt b).st = b := rfl
@[simp] theorem setSt_rs (b : Byte) : (s.setSt b).rs = s.rs := rfl
@[simp] theorem setSt_fcause (b : Byte) : (s.setSt b).fcause = s.fcause := rfl
@[simp] theorem setSt_finfo (b : Byte) : (s.setSt b).finfo = s.finfo := rfl
@[simp] theorem setSt_mem (b : Byte) : (s.setSt b).mem = s.mem := rfl
@[simp] theorem setSt_disp (b : Byte) : (s.setSt b).disp = s.disp := rfl
@[simp] theorem setSt_ipt (b : Byte) : (s.setSt b).ipt = s.ipt := rfl
@[simp] theorem setSt_keysDown (b : Byte) : (s.setSt b).keysDown = s.keysDown := rfl
@[simp] theorem setSt_keyEvent (b : Byte) : (s.setSt b).keyEvent = s.keyEvent := rfl
@[simp] theorem setSt_keyInputs (b : Byte) : (s.setSt b).keyInputs = s.keyInputs := rfl
@[simp] theorem setSt_ticks (b : Byte) : (s.setSt b).ticks = s.ticks := rfl
@[simp] theorem setSt_rndInputs (b : Byte) : (s.setSt b).rndInputs = s.rndInputs := rfl
@[simp] theorem setSt_draws (b : Byte) : (s.setSt b).draws = s.draws := rfl

/-! ## setRs -/

@[simp] theorem setRs_v (r : RunState) : (s.setRs r).v = s.v := rfl
@[simp] theorem setRs_pc (r : RunState) : (s.setRs r).pc = s.pc := rfl
@[simp] theorem setRs_i (r : RunState) : (s.setRs r).i = s.i := rfl
@[simp] theorem setRs_stack (r : RunState) : (s.setRs r).stack = s.stack := rfl
@[simp] theorem setRs_sp (r : RunState) : (s.setRs r).sp = s.sp := rfl
@[simp] theorem setRs_dt (r : RunState) : (s.setRs r).dt = s.dt := rfl
@[simp] theorem setRs_st (r : RunState) : (s.setRs r).st = s.st := rfl
@[simp] theorem setRs_rs (r : RunState) : (s.setRs r).rs = r := rfl
@[simp] theorem setRs_fcause (r : RunState) : (s.setRs r).fcause = s.fcause := rfl
@[simp] theorem setRs_finfo (r : RunState) : (s.setRs r).finfo = s.finfo := rfl
@[simp] theorem setRs_mem (r : RunState) : (s.setRs r).mem = s.mem := rfl
@[simp] theorem setRs_disp (r : RunState) : (s.setRs r).disp = s.disp := rfl
@[simp] theorem setRs_ipt (r : RunState) : (s.setRs r).ipt = s.ipt := rfl
@[simp] theorem setRs_keysDown (r : RunState) : (s.setRs r).keysDown = s.keysDown := rfl
@[simp] theorem setRs_keyEvent (r : RunState) : (s.setRs r).keyEvent = s.keyEvent := rfl
@[simp] theorem setRs_keyInputs (r : RunState) : (s.setRs r).keyInputs = s.keyInputs := rfl
@[simp] theorem setRs_ticks (r : RunState) : (s.setRs r).ticks = s.ticks := rfl
@[simp] theorem setRs_rndInputs (r : RunState) : (s.setRs r).rndInputs = s.rndInputs := rfl
@[simp] theorem setRs_draws (r : RunState) : (s.setRs r).draws = s.draws := rfl

/-! ## setMem -/

@[simp] theorem setMem_v (m : Memory) : (s.setMem m).v = s.v := rfl
@[simp] theorem setMem_pc (m : Memory) : (s.setMem m).pc = s.pc := rfl
@[simp] theorem setMem_i (m : Memory) : (s.setMem m).i = s.i := rfl
@[simp] theorem setMem_stack (m : Memory) : (s.setMem m).stack = s.stack := rfl
@[simp] theorem setMem_sp (m : Memory) : (s.setMem m).sp = s.sp := rfl
@[simp] theorem setMem_dt (m : Memory) : (s.setMem m).dt = s.dt := rfl
@[simp] theorem setMem_st (m : Memory) : (s.setMem m).st = s.st := rfl
@[simp] theorem setMem_rs (m : Memory) : (s.setMem m).rs = s.rs := rfl
@[simp] theorem setMem_fcause (m : Memory) : (s.setMem m).fcause = s.fcause := rfl
@[simp] theorem setMem_finfo (m : Memory) : (s.setMem m).finfo = s.finfo := rfl
@[simp] theorem setMem_mem (m : Memory) : (s.setMem m).mem = m := rfl
@[simp] theorem setMem_disp (m : Memory) : (s.setMem m).disp = s.disp := rfl
@[simp] theorem setMem_ipt (m : Memory) : (s.setMem m).ipt = s.ipt := rfl
@[simp] theorem setMem_keysDown (m : Memory) : (s.setMem m).keysDown = s.keysDown := rfl
@[simp] theorem setMem_keyEvent (m : Memory) : (s.setMem m).keyEvent = s.keyEvent := rfl
@[simp] theorem setMem_keyInputs (m : Memory) : (s.setMem m).keyInputs = s.keyInputs := rfl
@[simp] theorem setMem_ticks (m : Memory) : (s.setMem m).ticks = s.ticks := rfl
@[simp] theorem setMem_rndInputs (m : Memory) : (s.setMem m).rndInputs = s.rndInputs := rfl
@[simp] theorem setMem_draws (m : Memory) : (s.setMem m).draws = s.draws := rfl

/-! ## setDisp -/

@[simp] theorem setDisp_v (d : Display) : (s.setDisp d).v = s.v := rfl
@[simp] theorem setDisp_pc (d : Display) : (s.setDisp d).pc = s.pc := rfl
@[simp] theorem setDisp_i (d : Display) : (s.setDisp d).i = s.i := rfl
@[simp] theorem setDisp_stack (d : Display) : (s.setDisp d).stack = s.stack := rfl
@[simp] theorem setDisp_sp (d : Display) : (s.setDisp d).sp = s.sp := rfl
@[simp] theorem setDisp_dt (d : Display) : (s.setDisp d).dt = s.dt := rfl
@[simp] theorem setDisp_st (d : Display) : (s.setDisp d).st = s.st := rfl
@[simp] theorem setDisp_rs (d : Display) : (s.setDisp d).rs = s.rs := rfl
@[simp] theorem setDisp_fcause (d : Display) : (s.setDisp d).fcause = s.fcause := rfl
@[simp] theorem setDisp_finfo (d : Display) : (s.setDisp d).finfo = s.finfo := rfl
@[simp] theorem setDisp_mem (d : Display) : (s.setDisp d).mem = s.mem := rfl
@[simp] theorem setDisp_disp (d : Display) : (s.setDisp d).disp = d := rfl
@[simp] theorem setDisp_ipt (d : Display) : (s.setDisp d).ipt = s.ipt := rfl
@[simp] theorem setDisp_keysDown (d : Display) : (s.setDisp d).keysDown = s.keysDown := rfl
@[simp] theorem setDisp_keyEvent (d : Display) : (s.setDisp d).keyEvent = s.keyEvent := rfl
@[simp] theorem setDisp_keyInputs (d : Display) : (s.setDisp d).keyInputs = s.keyInputs := rfl
@[simp] theorem setDisp_ticks (d : Display) : (s.setDisp d).ticks = s.ticks := rfl
@[simp] theorem setDisp_rndInputs (d : Display) : (s.setDisp d).rndInputs = s.rndInputs := rfl
@[simp] theorem setDisp_draws (d : Display) : (s.setDisp d).draws = s.draws := rfl

/-! ## drop -/

@[simp] theorem drop_v : s.drop.v = s.v := rfl
@[simp] theorem drop_pc : s.drop.pc = s.pc := rfl
@[simp] theorem drop_i : s.drop.i = s.i := rfl
@[simp] theorem drop_stack : s.drop.stack = s.stack := rfl
@[simp] theorem drop_dt : s.drop.dt = s.dt := rfl
@[simp] theorem drop_st : s.drop.st = s.st := rfl
@[simp] theorem drop_rs : s.drop.rs = s.rs := rfl
@[simp] theorem drop_fcause : s.drop.fcause = s.fcause := rfl
@[simp] theorem drop_finfo : s.drop.finfo = s.finfo := rfl
@[simp] theorem drop_mem : s.drop.mem = s.mem := rfl
@[simp] theorem drop_disp : s.drop.disp = s.disp := rfl
@[simp] theorem drop_ipt : s.drop.ipt = s.ipt := rfl
@[simp] theorem drop_keysDown : s.drop.keysDown = s.keysDown := rfl
@[simp] theorem drop_keyEvent : s.drop.keyEvent = s.keyEvent := rfl
@[simp] theorem drop_keyInputs : s.drop.keyInputs = s.keyInputs := rfl
@[simp] theorem drop_ticks : s.drop.ticks = s.ticks := rfl
@[simp] theorem drop_rndInputs : s.drop.rndInputs = s.rndInputs := rfl
@[simp] theorem drop_draws : s.drop.draws = s.draws := rfl

/-! ## raise -/

@[simp] theorem raise_v (f : Fault) : (s.raise f).v = s.v := rfl
@[simp] theorem raise_pc (f : Fault) : (s.raise f).pc = s.pc := rfl
@[simp] theorem raise_i (f : Fault) : (s.raise f).i = s.i := rfl
@[simp] theorem raise_stack (f : Fault) : (s.raise f).stack = s.stack := rfl
@[simp] theorem raise_sp (f : Fault) : (s.raise f).sp = s.sp := rfl
@[simp] theorem raise_dt (f : Fault) : (s.raise f).dt = s.dt := rfl
@[simp] theorem raise_st (f : Fault) : (s.raise f).st = s.st := rfl
@[simp] theorem raise_rs (f : Fault) : (s.raise f).rs = .halted := rfl
@[simp] theorem raise_fcause (f : Fault) : (s.raise f).fcause = f.code := rfl
@[simp] theorem raise_finfo (f : Fault) : (s.raise f).finfo = BitVec.ofNat 16 f.info := rfl
@[simp] theorem raise_mem (f : Fault) : (s.raise f).mem = s.mem := rfl
@[simp] theorem raise_disp (f : Fault) : (s.raise f).disp = s.disp := rfl
@[simp] theorem raise_ipt (f : Fault) : (s.raise f).ipt = s.ipt := rfl
@[simp] theorem raise_keysDown (f : Fault) : (s.raise f).keysDown = s.keysDown := rfl
@[simp] theorem raise_keyEvent (f : Fault) : (s.raise f).keyEvent = s.keyEvent := rfl
@[simp] theorem raise_keyInputs (f : Fault) : (s.raise f).keyInputs = s.keyInputs := rfl
@[simp] theorem raise_ticks (f : Fault) : (s.raise f).ticks = s.ticks := rfl
@[simp] theorem raise_rndInputs (f : Fault) : (s.raise f).rndInputs = s.rndInputs := rfl
@[simp] theorem raise_draws (f : Fault) : (s.raise f).draws = s.draws := rfl

/-! ## timerStep -/

@[simp] theorem timerStep_v : s.timerStep.v = s.v := rfl
@[simp] theorem timerStep_pc : s.timerStep.pc = s.pc := rfl
@[simp] theorem timerStep_i : s.timerStep.i = s.i := rfl
@[simp] theorem timerStep_stack : s.timerStep.stack = s.stack := rfl
@[simp] theorem timerStep_sp : s.timerStep.sp = s.sp := rfl
@[simp] theorem timerStep_dt : s.timerStep.dt = if s.dt = 0 then 0 else s.dt - 1 := rfl
@[simp] theorem timerStep_st : s.timerStep.st = if s.st = 0 then 0 else s.st - 1 := rfl
@[simp] theorem timerStep_rs : s.timerStep.rs = s.rs := rfl
@[simp] theorem timerStep_fcause : s.timerStep.fcause = s.fcause := rfl
@[simp] theorem timerStep_finfo : s.timerStep.finfo = s.finfo := rfl
@[simp] theorem timerStep_mem : s.timerStep.mem = s.mem := rfl
@[simp] theorem timerStep_disp : s.timerStep.disp = s.disp := rfl
@[simp] theorem timerStep_ipt : s.timerStep.ipt = s.ipt := rfl
@[simp] theorem timerStep_keysDown : s.timerStep.keysDown = s.keysDown := rfl
@[simp] theorem timerStep_keyEvent : s.timerStep.keyEvent = s.keyEvent := rfl
@[simp] theorem timerStep_keyInputs : s.timerStep.keyInputs = s.keyInputs := rfl
@[simp] theorem timerStep_ticks : s.timerStep.ticks = s.ticks := rfl
@[simp] theorem timerStep_rndInputs : s.timerStep.rndInputs = s.rndInputs := rfl
@[simp] theorem timerStep_draws : s.timerStep.draws = s.draws := rfl

/-! ## sampleKeys -/

@[simp] theorem sampleKeys_v : s.sampleKeys.v = s.v := rfl
@[simp] theorem sampleKeys_pc : s.sampleKeys.pc = s.pc := rfl
@[simp] theorem sampleKeys_i : s.sampleKeys.i = s.i := rfl
@[simp] theorem sampleKeys_stack : s.sampleKeys.stack = s.stack := rfl
@[simp] theorem sampleKeys_sp : s.sampleKeys.sp = s.sp := rfl
@[simp] theorem sampleKeys_dt : s.sampleKeys.dt = s.dt := rfl
@[simp] theorem sampleKeys_st : s.sampleKeys.st = s.st := rfl
@[simp] theorem sampleKeys_rs : s.sampleKeys.rs = s.rs := rfl
@[simp] theorem sampleKeys_fcause : s.sampleKeys.fcause = s.fcause := rfl
@[simp] theorem sampleKeys_finfo : s.sampleKeys.finfo = s.finfo := rfl
@[simp] theorem sampleKeys_mem : s.sampleKeys.mem = s.mem := rfl
@[simp] theorem sampleKeys_disp : s.sampleKeys.disp = s.disp := rfl
@[simp] theorem sampleKeys_ipt : s.sampleKeys.ipt = s.ipt := rfl
@[simp] theorem sampleKeys_keysDown : s.sampleKeys.keysDown = s.nextKeySample.keysDown := rfl
@[simp] theorem sampleKeys_keyEvent : s.sampleKeys.keyEvent = s.nextKeySample.keyEvent := rfl
@[simp] theorem sampleKeys_keyInputs : s.sampleKeys.keyInputs = s.keyInputs.tail := rfl
@[simp] theorem sampleKeys_ticks : s.sampleKeys.ticks = s.ticks + 1 := rfl
@[simp] theorem sampleKeys_rndInputs : s.sampleKeys.rndInputs = s.rndInputs := rfl
@[simp] theorem sampleKeys_draws : s.sampleKeys.draws = s.draws := rfl

/-! ## consumeRnd -/

@[simp] theorem consumeRnd_v : s.consumeRnd.v = s.v := rfl
@[simp] theorem consumeRnd_pc : s.consumeRnd.pc = s.pc := rfl
@[simp] theorem consumeRnd_i : s.consumeRnd.i = s.i := rfl
@[simp] theorem consumeRnd_stack : s.consumeRnd.stack = s.stack := rfl
@[simp] theorem consumeRnd_sp : s.consumeRnd.sp = s.sp := rfl
@[simp] theorem consumeRnd_dt : s.consumeRnd.dt = s.dt := rfl
@[simp] theorem consumeRnd_st : s.consumeRnd.st = s.st := rfl
@[simp] theorem consumeRnd_rs : s.consumeRnd.rs = s.rs := rfl
@[simp] theorem consumeRnd_fcause : s.consumeRnd.fcause = s.fcause := rfl
@[simp] theorem consumeRnd_finfo : s.consumeRnd.finfo = s.finfo := rfl
@[simp] theorem consumeRnd_mem : s.consumeRnd.mem = s.mem := rfl
@[simp] theorem consumeRnd_disp : s.consumeRnd.disp = s.disp := rfl
@[simp] theorem consumeRnd_ipt : s.consumeRnd.ipt = s.ipt := rfl
@[simp] theorem consumeRnd_keysDown : s.consumeRnd.keysDown = s.keysDown := rfl
@[simp] theorem consumeRnd_keyEvent : s.consumeRnd.keyEvent = s.keyEvent := rfl
@[simp] theorem consumeRnd_keyInputs : s.consumeRnd.keyInputs = s.keyInputs := rfl
@[simp] theorem consumeRnd_ticks : s.consumeRnd.ticks = s.ticks := rfl
@[simp] theorem consumeRnd_rndInputs : s.consumeRnd.rndInputs = s.rndInputs.tail := rfl
@[simp] theorem consumeRnd_draws : s.consumeRnd.draws = s.draws + 1 := rfl

/-! ## push, which writes the stack and its pointer only -/

@[simp] theorem push_v (a : Word) : (s.push a).v = s.v := by unfold push; split <;> rfl
@[simp] theorem push_pc (a : Word) : (s.push a).pc = s.pc := by unfold push; split <;> rfl
@[simp] theorem push_i (a : Word) : (s.push a).i = s.i := by unfold push; split <;> rfl
@[simp] theorem push_dt (a : Word) : (s.push a).dt = s.dt := by unfold push; split <;> rfl
@[simp] theorem push_st (a : Word) : (s.push a).st = s.st := by unfold push; split <;> rfl
@[simp] theorem push_rs (a : Word) : (s.push a).rs = s.rs := by unfold push; split <;> rfl
@[simp] theorem push_fcause (a : Word) : (s.push a).fcause = s.fcause := by unfold push; split <;> rfl
@[simp] theorem push_finfo (a : Word) : (s.push a).finfo = s.finfo := by unfold push; split <;> rfl
@[simp] theorem push_mem (a : Word) : (s.push a).mem = s.mem := by unfold push; split <;> rfl
@[simp] theorem push_disp (a : Word) : (s.push a).disp = s.disp := by unfold push; split <;> rfl
@[simp] theorem push_ipt (a : Word) : (s.push a).ipt = s.ipt := by unfold push; split <;> rfl
@[simp] theorem push_keysDown (a : Word) : (s.push a).keysDown = s.keysDown := by unfold push; split <;> rfl
@[simp] theorem push_keyEvent (a : Word) : (s.push a).keyEvent = s.keyEvent := by unfold push; split <;> rfl
@[simp] theorem push_keyInputs (a : Word) : (s.push a).keyInputs = s.keyInputs := by unfold push; split <;> rfl
@[simp] theorem push_ticks (a : Word) : (s.push a).ticks = s.ticks := by unfold push; split <;> rfl
@[simp] theorem push_rndInputs (a : Word) : (s.push a).rndInputs = s.rndInputs := by unfold push; split <;> rfl
@[simp] theorem push_draws (a : Word) : (s.push a).draws = s.draws := by unfold push; split <;> rfl

/-- Below sixteen entries a push counts one entry more. -/
theorem push_sp_val (a : Word) (h : s.sp.val < 16) : (s.push a).sp.val = s.sp.val + 1 := by simp [push, h]

/-- Below sixteen entries a push writes the return address to `STACK[SP]` and leaves the other entries. -/
theorem push_stack (a : Word) (h : s.sp.val < 16) (j : Fin 16) :
    (s.push a).stack[j] = if j.val = s.sp.val then a else s.stack[j] := by
  simp only [push, h, dite_true, Fin.getElem_fin, Vector.getElem_set]
  simp only [eq_comm]

/-- With sixteen entries a push changes nothing. -/
theorem push_full (a : Word) (h : s.sp.val = 16) : s.push a = s := by simp [push, h]

/-! ## Registers read after a write -/

/-- A register reads as what was written to it. -/
@[simp] theorem reg_setReg_same (x : Reg) (b : Byte) : (s.setReg x b).reg x = b := by simp [reg]

/-- A write to one register leaves the others (`10_state.md` R21: none aliases another). -/
theorem reg_setReg_other (x y : Reg) (b : Byte) (h : y ≠ x) : (s.setReg x b).reg y = s.reg y := by
  have : x.val ≠ y.val := fun e => h (Fin.ext e.symm)
  simp [reg, Vector.getElem_set_ne, this]

end Sys2Proof.Machine.State
end

