-- ==== Sys2Proof/Laws/Ops.lean ====
section
/-! SUPPORT. What each shared operation over operands and faults can do, said once. -/

namespace Sys2Proof.Machine

/-! ## Faults -/

@[simp] theorem unlessFault_none (s t : State) : s.unlessFault none t = t := rfl

@[simp] theorem unlessFault_some (s t : State) (f : Fault) : s.unlessFault (some f) t = s.raise f := rfl

/-- An instruction's checks end in one of two ways: a fault with none of its writes, or all of its writes. -/
theorem unlessFault_cases (s t : State) (c : Option Fault) :
    (∃ f, c = some f ∧ s.unlessFault c t = s.raise f) ∨ (c = none ∧ s.unlessFault c t = t) := by
  cases c with
  | none => exact .inr ⟨rfl, rfl⟩
  | some f => exact .inl ⟨f, rfl, rfl⟩

/-- No fault has the code 0 of "none" (R201). -/
theorem Fault.code_ne_zero (f : Fault) : f.code ≠ 0 := by cases f <;> simp [Fault.code]

/-- The window check passes if no byte of the window lies above `0xFFF` (R58). -/
theorem windowFault_none {base len : Nat} (h : len = 0 ∨ base + len - 1 ≤ 0xFFF) : windowFault base len = none :=
  if_neg (by omega)

/-- The window check faults, with `0x1000`, if a byte of the window lies above `0xFFF` (R58). -/
theorem windowFault_some {base len : Nat} (h1 : 1 ≤ len) (h2 : 0xFFF < base + len - 1) :
    windowFault base len = some (.dataAddressError 0x1000) := if_pos ⟨h1, h2⟩

theorem indexFault_none {sum : Nat} (h : sum ≤ 0xFFF) : indexFault sum = none := if_neg (by omega)

theorem indexFault_some {sum : Nat} (h : 0xFFF < sum) : indexFault sum = some (.indexOutOfRange sum) := if_pos h

theorem keyFault_none {vx : Byte} (h : vx.toNat ≤ 15) : keyFault vx = none := if_neg (by omega)

theorem keyFault_some {vx : Byte} (h : 15 < vx.toNat) : keyFault vx = some (.keyIndexError vx) := if_pos h

theorem pushFault_none {s : State} (h : s.sp.val < 16) : pushFault s = none := if_neg (by omega)

theorem pushFault_some {s : State} (h : s.sp.val = 16) : pushFault s = some .stackOverflow := if_pos h

theorem popFault_none {s : State} (h : s.sp.val ≠ 0) : popFault s = none := if_neg h

theorem popFault_some {s : State} (h : s.sp.val = 0) : popFault s = some .stackUnderflow := if_pos h

/-! ## Block transfers -/

@[simp] theorem length_regsUpTo (v : Vector Byte 16) (x : Reg) : (regsUpTo v x).length = x.val + 1 := by
  simp [regsUpTo]

/-- The j-th of the registers stored is `Vj` (R155). -/
theorem getElem_regsUpTo (v : Vector Byte 16) (x : Reg) (j : Nat) (h : j < (regsUpTo v x).length) :
    (regsUpTo v x)[j] = v[j]'(by rw [length_regsUpTo] at h; omega) := by
  simp [regsUpTo]

/-- A block load gives `Vj` the byte at `base + j` up to `Vx`, and leaves the registers above (R155, R157). -/
theorem getElem_loadRegs (m : Memory) (base : Nat) (x : Reg) (v : Vector Byte 16) (j : Fin 16) :
    (loadRegs m base x v)[j] = if j ≤ x then m.read (base + j.val) else v[j] := by
  simp [loadRegs]

@[simp] theorem length_bcdDigits (vx : Byte) : (bcdDigits vx).length = 3 := rfl

/-! ## Narrowing -/

@[simp] theorem toNat_addBytes (vx vy : Byte) : (addBytes vx vy).toNat = (vx.toNat + vy.toNat) % 256 := by
  simp [addBytes]

@[simp] theorem toNat_subBytes (a b : Byte) : (subBytes a b).toNat = (256 + a.toNat - b.toNat) % 256 := by
  simp [subBytes]

@[simp] theorem toNat_zextAddr (nnn : Addr12) : (zextAddr nnn).toNat = nnn.toNat := by
  have := nnn.isLt
  simp [zextAddr]; omega

@[simp] theorem toNat_keyByte (k : Key) : (keyByte k).toNat = k.val := by
  simp [keyByte]; omega

/-! ## Input ports -/

/-- A listed sample is the next one (R101). -/
theorem nextKeySample_listed {s : State} {k : KeySample} {ks : List KeySample} (h : s.keyInputs = k :: ks) :
    s.nextKeySample = k := by simp [State.nextKeySample, h]

/-- A listed byte is the next draw (R43). -/
theorem nextRnd_listed {s : State} {r : Byte} {rs : List Byte} (h : s.rndInputs = r :: rs) : s.nextRnd = r := by
  simp [State.nextRnd, h]

end Sys2Proof.Machine
end

