-- ==== Sys2Proof/Laws/Exec.lean ====
section
/-! SUPPORT. The nine instructions that check before they write (`60_exceptions.md` R224): where each completes, and where
each faults. -/

namespace Sys2Proof.Machine

variable {s : State}

/-- A check that passes: the instruction completes. -/
theorem completes {c : Option Fault} {t : State} (h : c = none) :
    (.next (s.unlessFault c t) : Host.Outcome State Fault Refusal) = .next t := by rw [h]; rfl

/-- A check that fails: the instruction faults. -/
theorem faults {c : Option Fault} {t : State} {f : Fault} (h : c = some f) :
    (.next (s.unlessFault c t) : Host.Outcome State Fault Refusal) = .next (s.raise f) := by rw [h]; rfl

theorem exec_ret (h : s.sp.val ≠ 0) : exec .ret s = .next (s.drop.setPc s.top) :=
  completes (popFault_none h)

theorem exec_ret_fault (h : s.sp.val = 0) : exec .ret s = .next (s.raise .stackUnderflow) :=
  faults (popFault_some h)

theorem exec_call (nnn : Addr12) (h : s.sp.val < 16) :
    exec (.call nnn) s = .next ((s.push (s.pc + 2)).setPc (zextAddr nnn)) :=
  completes (pushFault_none h)

theorem exec_call_fault (nnn : Addr12) (h : s.sp.val = 16) : exec (.call nnn) s = .next (s.raise .stackOverflow) :=
  faults (pushFault_some h)

theorem exec_drw (x y : Reg) (n : Rows) (h : n.val = 0 ∨ s.i.toNat + n.val - 1 ≤ 0xFFF) :
    exec (.drw x y n) s =
      .next ((s.setDisp (s.drawn x y n).1).setReg VF (collisionFlag (s.drawn x y n).2)).advance :=
  completes (windowFault_none h)

theorem exec_drw_fault (x y : Reg) (n : Rows) (h : 1 ≤ n.val) (h' : 0xFFF < s.i.toNat + n.val - 1) :
    exec (.drw x y n) s = .next (s.raise (.dataAddressError 0x1000)) :=
  faults (windowFault_some h h')

theorem exec_addIVx (x : Reg) (h : s.i.toNat + (s.reg x).toNat ≤ 0xFFF) :
    exec (.addIVx x) s = .next (s.setI (BitVec.ofNat 16 (s.i.toNat + (s.reg x).toNat))).advance :=
  completes (indexFault_none h)

theorem exec_addIVx_fault (x : Reg) (h : 0xFFF < s.i.toNat + (s.reg x).toNat) :
    exec (.addIVx x) s = .next (s.raise (.indexOutOfRange (s.i.toNat + (s.reg x).toNat))) :=
  faults (indexFault_some h)

theorem exec_ldBVx (x : Reg) (h : s.i.toNat + 2 ≤ 0xFFF) :
    exec (.ldBVx x) s = .next (s.setMem (s.mem.writeBytes s.base (bcdDigits (s.reg x)))).advance :=
  completes (windowFault_none (.inr h))

theorem exec_ldBVx_fault (x : Reg) (h : 0xFFF < s.i.toNat + 2) :
    exec (.ldBVx x) s = .next (s.raise (.dataAddressError 0x1000)) :=
  faults (windowFault_some (by omega) h)

theorem exec_ldMemVx (x : Reg) (h : s.i.toNat + x.val ≤ 0xFFF) :
    exec (.ldMemVx x) s = .next (s.setMem (s.mem.writeBytes s.base (regsUpTo s.v x))).advance :=
  completes (windowFault_none (.inr h))

theorem exec_ldMemVx_fault (x : Reg) (h : 0xFFF < s.i.toNat + x.val) :
    exec (.ldMemVx x) s = .next (s.raise (.dataAddressError 0x1000)) :=
  faults (windowFault_some (by omega) h)

theorem exec_ldVxMem (x : Reg) (h : s.i.toNat + x.val ≤ 0xFFF) :
    exec (.ldVxMem x) s = .next (s.setRegs (loadRegs s.mem s.base x s.v)).advance :=
  completes (windowFault_none (.inr h))

theorem exec_ldVxMem_fault (x : Reg) (h : 0xFFF < s.i.toNat + x.val) :
    exec (.ldVxMem x) s = .next (s.raise (.dataAddressError 0x1000)) :=
  faults (windowFault_some (by omega) h)

theorem exec_skp (x : Reg) (h : (s.reg x).toNat ≤ 15) : exec (.skp x) s = .next (s.skipIf (s.keyDown (s.reg x))) :=
  completes (keyFault_none h)

theorem exec_skp_fault (x : Reg) (h : 15 < (s.reg x).toNat) :
    exec (.skp x) s = .next (s.raise (.keyIndexError (s.reg x))) :=
  faults (keyFault_some h)

theorem exec_sknp (x : Reg) (h : (s.reg x).toNat ≤ 15) :
    exec (.sknp x) s = .next (s.skipIf (!s.keyDown (s.reg x))) :=
  completes (keyFault_none h)

theorem exec_sknp_fault (x : Reg) (h : 15 < (s.reg x).toNat) :
    exec (.sknp x) s = .next (s.raise (.keyIndexError (s.reg x))) :=
  faults (keyFault_some h)

end Sys2Proof.Machine
end

