-- ==== Sys2Proof/Laws/PerInstr.lean ====
section
/-! SUPPORT. Statements about all instructions, made per instruction. Family `RowFits`: the word the encoder gives an
instruction fits a row of the opcode table, and that row builds the instruction back from it. -/

namespace Sys2Proof.Laws.RowFits

/-- A row of the table fits the encoded word and reads every operand back. -/
def Statement (i : Instr) : Prop := ∃ r ∈ opcodeTable, r.fits (encode i) = true ∧ r.build (encode i) = i

/-- The shape shared by the family: the row with this pattern, mask and build is in the table, fits, and builds back. -/
theorem of_row {i : Instr} (r : OpcodeRow) (hr : r ∈ opcodeTable) (hf : encode i &&& r.mask = r.pattern)
    (hb : r.build (encode i) = i) : Statement i := ⟨r, hr, by simp [OpcodeRow.fits, hf], hb⟩

theorem cls : Statement .cls :=
  of_row ⟨0x00E0, 0xFFFF, fun _ => .cls⟩ (by simp [opcodeTable, opcodeRows0to7]) rfl rfl

theorem ret : Statement .ret :=
  of_row ⟨0x00EE, 0xFFFF, fun _ => .ret⟩ (by simp [opcodeTable, opcodeRows0to7]) rfl rfl

theorem jp (nnn : Addr12) : Statement (.jp nnn) :=
  of_row ⟨0x1000, 0xF000, fun w => .jp (fieldNnn w)⟩ (by simp [opcodeTable, opcodeRows0to7])
    (by simp [encode, wordA_eq, BitVec.and_or_distrib_right]) (by simp [encode, wordA_eq, fieldNnn, BitVec.extractLsb'_or])

theorem call (nnn : Addr12) : Statement (.call nnn) :=
  of_row ⟨0x2000, 0xF000, fun w => .call (fieldNnn w)⟩ (by simp [opcodeTable, opcodeRows0to7])
    (by simp [encode, wordA_eq, BitVec.and_or_distrib_right]) (by simp [encode, wordA_eq, fieldNnn, BitVec.extractLsb'_or])

theorem seImm (x : Reg) (kk : Byte) : Statement (.seImm x kk) :=
  of_row ⟨0x3000, 0xF000, fun w => .seImm (fieldX w) (fieldKk w)⟩ (by simp [opcodeTable, opcodeRows0to7])
    (by simp [encode, wordXK_eq, BitVec.and_or_distrib_right]) (by simp [encode, wordXK_eq, fieldX, fieldKk, BitVec.extractLsb'_or])

theorem sneImm (x : Reg) (kk : Byte) : Statement (.sneImm x kk) :=
  of_row ⟨0x4000, 0xF000, fun w => .sneImm (fieldX w) (fieldKk w)⟩ (by simp [opcodeTable, opcodeRows0to7])
    (by simp [encode, wordXK_eq, BitVec.and_or_distrib_right]) (by simp [encode, wordXK_eq, fieldX, fieldKk, BitVec.extractLsb'_or])

theorem seReg (x y : Reg) : Statement (.seReg x y) :=
  of_row ⟨0x5000, 0xF00F, fun w => .seReg (fieldX w) (fieldY w)⟩ (by simp [opcodeTable, opcodeRows0to7])
    (by simp [encode, wordXY_eq, BitVec.and_or_distrib_right]) (by simp [encode, wordXY_eq, fieldX, fieldY, BitVec.extractLsb'_or])

theorem ldImm (x : Reg) (kk : Byte) : Statement (.ldImm x kk) :=
  of_row ⟨0x6000, 0xF000, fun w => .ldImm (fieldX w) (fieldKk w)⟩ (by simp [opcodeTable, opcodeRows0to7])
    (by simp [encode, wordXK_eq, BitVec.and_or_distrib_right]) (by simp [encode, wordXK_eq, fieldX, fieldKk, BitVec.extractLsb'_or])

theorem addImm (x : Reg) (kk : Byte) : Statement (.addImm x kk) :=
  of_row ⟨0x7000, 0xF000, fun w => .addImm (fieldX w) (fieldKk w)⟩ (by simp [opcodeTable, opcodeRows0to7])
    (by simp [encode, wordXK_eq, BitVec.and_or_distrib_right]) (by simp [encode, wordXK_eq, fieldX, fieldKk, BitVec.extractLsb'_or])

theorem ldReg (x y : Reg) : Statement (.ldReg x y) :=
  of_row ⟨0x8000, 0xF00F, fun w => .ldReg (fieldX w) (fieldY w)⟩ (by simp [opcodeTable, opcodeRows8])
    (by simp [encode, wordXY_eq, BitVec.and_or_distrib_right]) (by simp [encode, wordXY_eq, fieldX, fieldY, BitVec.extractLsb'_or])

theorem orReg (x y : Reg) : Statement (.orReg x y) :=
  of_row ⟨0x8001, 0xF00F, fun w => .orReg (fieldX w) (fieldY w)⟩ (by simp [opcodeTable, opcodeRows8])
    (by simp [encode, wordXY_eq, BitVec.and_or_distrib_right]) (by simp [encode, wordXY_eq, fieldX, fieldY, BitVec.extractLsb'_or])

theorem andReg (x y : Reg) : Statement (.andReg x y) :=
  of_row ⟨0x8002, 0xF00F, fun w => .andReg (fieldX w) (fieldY w)⟩ (by simp [opcodeTable, opcodeRows8])
    (by simp [encode, wordXY_eq, BitVec.and_or_distrib_right]) (by simp [encode, wordXY_eq, fieldX, fieldY, BitVec.extractLsb'_or])

theorem xorReg (x y : Reg) : Statement (.xorReg x y) :=
  of_row ⟨0x8003, 0xF00F, fun w => .xorReg (fieldX w) (fieldY w)⟩ (by simp [opcodeTable, opcodeRows8])
    (by simp [encode, wordXY_eq, BitVec.and_or_distrib_right]) (by simp [encode, wordXY_eq, fieldX, fieldY, BitVec.extractLsb'_or])

theorem addReg (x y : Reg) : Statement (.addReg x y) :=
  of_row ⟨0x8004, 0xF00F, fun w => .addReg (fieldX w) (fieldY w)⟩ (by simp [opcodeTable, opcodeRows8])
    (by simp [encode, wordXY_eq, BitVec.and_or_distrib_right]) (by simp [encode, wordXY_eq, fieldX, fieldY, BitVec.extractLsb'_or])

theorem subReg (x y : Reg) : Statement (.subReg x y) :=
  of_row ⟨0x8005, 0xF00F, fun w => .subReg (fieldX w) (fieldY w)⟩ (by simp [opcodeTable, opcodeRows8])
    (by simp [encode, wordXY_eq, BitVec.and_or_distrib_right]) (by simp [encode, wordXY_eq, fieldX, fieldY, BitVec.extractLsb'_or])

theorem shr (x : Reg) : Statement (.shr x) :=
  of_row ⟨0x8006, 0xF00F, fun w => .shr (fieldX w)⟩ (by simp [opcodeTable, opcodeRows8])
    (by simp [encode, wordX_eq, BitVec.and_or_distrib_right]) (by simp [encode, wordX_eq, fieldX, BitVec.extractLsb'_or])

theorem subnReg (x y : Reg) : Statement (.subnReg x y) :=
  of_row ⟨0x8007, 0xF00F, fun w => .subnReg (fieldX w) (fieldY w)⟩ (by simp [opcodeTable, opcodeRows8])
    (by simp [encode, wordXY_eq, BitVec.and_or_distrib_right]) (by simp [encode, wordXY_eq, fieldX, fieldY, BitVec.extractLsb'_or])

theorem shl (x : Reg) : Statement (.shl x) :=
  of_row ⟨0x800E, 0xF00F, fun w => .shl (fieldX w)⟩ (by simp [opcodeTable, opcodeRows8])
    (by simp [encode, wordX_eq, BitVec.and_or_distrib_right]) (by simp [encode, wordX_eq, fieldX, BitVec.extractLsb'_or])

theorem sneReg (x y : Reg) : Statement (.sneReg x y) :=
  of_row ⟨0x9000, 0xF00F, fun w => .sneReg (fieldX w) (fieldY w)⟩ (by simp [opcodeTable, opcodeRows9toE])
    (by simp [encode, wordXY_eq, BitVec.and_or_distrib_right]) (by simp [encode, wordXY_eq, fieldX, fieldY, BitVec.extractLsb'_or])

theorem ldI (nnn : Addr12) : Statement (.ldI nnn) :=
  of_row ⟨0xA000, 0xF000, fun w => .ldI (fieldNnn w)⟩ (by simp [opcodeTable, opcodeRows9toE])
    (by simp [encode, wordA_eq, BitVec.and_or_distrib_right]) (by simp [encode, wordA_eq, fieldNnn, BitVec.extractLsb'_or])

theorem jpV0 (nnn : Addr12) : Statement (.jpV0 nnn) :=
  of_row ⟨0xB000, 0xF000, fun w => .jpV0 (fieldNnn w)⟩ (by simp [opcodeTable, opcodeRows9toE])
    (by simp [encode, wordA_eq, BitVec.and_or_distrib_right]) (by simp [encode, wordA_eq, fieldNnn, BitVec.extractLsb'_or])

theorem rnd (x : Reg) (kk : Byte) : Statement (.rnd x kk) :=
  of_row ⟨0xC000, 0xF000, fun w => .rnd (fieldX w) (fieldKk w)⟩ (by simp [opcodeTable, opcodeRows9toE])
    (by simp [encode, wordXK_eq, BitVec.and_or_distrib_right]) (by simp [encode, wordXK_eq, fieldX, fieldKk, BitVec.extractLsb'_or])

theorem drw (x y : Reg) (n : Rows) : Statement (.drw x y n) :=
  of_row ⟨0xD000, 0xF000, fun w => .drw (fieldX w) (fieldY w) (fieldN w)⟩ (by simp [opcodeTable, opcodeRows9toE])
    (by simp [encode, wordXYN_eq, BitVec.and_or_distrib_right]) (by simp [encode, wordXYN_eq, fieldX, fieldY, fieldN, BitVec.extractLsb'_or])

theorem skp (x : Reg) : Statement (.skp x) :=
  of_row ⟨0xE09E, 0xF0FF, fun w => .skp (fieldX w)⟩ (by simp [opcodeTable, opcodeRows9toE])
    (by simp [encode, wordX_eq, BitVec.and_or_distrib_right]) (by simp [encode, wordX_eq, fieldX, BitVec.extractLsb'_or])

theorem sknp (x : Reg) : Statement (.sknp x) :=
  of_row ⟨0xE0A1, 0xF0FF, fun w => .sknp (fieldX w)⟩ (by simp [opcodeTable, opcodeRows9toE])
    (by simp [encode, wordX_eq, BitVec.and_or_distrib_right]) (by simp [encode, wordX_eq, fieldX, BitVec.extractLsb'_or])

theorem ldVxDt (x : Reg) : Statement (.ldVxDt x) :=
  of_row ⟨0xF007, 0xF0FF, fun w => .ldVxDt (fieldX w)⟩ (by simp [opcodeTable, opcodeRowsF])
    (by simp [encode, wordX_eq, BitVec.and_or_distrib_right]) (by simp [encode, wordX_eq, fieldX, BitVec.extractLsb'_or])

theorem ldVxK (x : Reg) : Statement (.ldVxK x) :=
  of_row ⟨0xF00A, 0xF0FF, fun w => .ldVxK (fieldX w)⟩ (by simp [opcodeTable, opcodeRowsF])
    (by simp [encode, wordX_eq, BitVec.and_or_distrib_right]) (by simp [encode, wordX_eq, fieldX, BitVec.extractLsb'_or])

theorem ldDtVx (x : Reg) : Statement (.ldDtVx x) :=
  of_row ⟨0xF015, 0xF0FF, fun w => .ldDtVx (fieldX w)⟩ (by simp [opcodeTable, opcodeRowsF])
    (by simp [encode, wordX_eq, BitVec.and_or_distrib_right]) (by simp [encode, wordX_eq, fieldX, BitVec.extractLsb'_or])

theorem ldStVx (x : Reg) : Statement (.ldStVx x) :=
  of_row ⟨0xF018, 0xF0FF, fun w => .ldStVx (fieldX w)⟩ (by simp [opcodeTable, opcodeRowsF])
    (by simp [encode, wordX_eq, BitVec.and_or_distrib_right]) (by simp [encode, wordX_eq, fieldX, BitVec.extractLsb'_or])

theorem addIVx (x : Reg) : Statement (.addIVx x) :=
  of_row ⟨0xF01E, 0xF0FF, fun w => .addIVx (fieldX w)⟩ (by simp [opcodeTable, opcodeRowsF])
    (by simp [encode, wordX_eq, BitVec.and_or_distrib_right]) (by simp [encode, wordX_eq, fieldX, BitVec.extractLsb'_or])

theorem ldFVx (x : Reg) : Statement (.ldFVx x) :=
  of_row ⟨0xF029, 0xF0FF, fun w => .ldFVx (fieldX w)⟩ (by simp [opcodeTable, opcodeRowsF])
    (by simp [encode, wordX_eq, BitVec.and_or_distrib_right]) (by simp [encode, wordX_eq, fieldX, BitVec.extractLsb'_or])

theorem ldBVx (x : Reg) : Statement (.ldBVx x) :=
  of_row ⟨0xF033, 0xF0FF, fun w => .ldBVx (fieldX w)⟩ (by simp [opcodeTable, opcodeRowsF])
    (by simp [encode, wordX_eq, BitVec.and_or_distrib_right]) (by simp [encode, wordX_eq, fieldX, BitVec.extractLsb'_or])

theorem ldMemVx (x : Reg) : Statement (.ldMemVx x) :=
  of_row ⟨0xF055, 0xF0FF, fun w => .ldMemVx (fieldX w)⟩ (by simp [opcodeTable, opcodeRowsF])
    (by simp [encode, wordX_eq, BitVec.and_or_distrib_right]) (by simp [encode, wordX_eq, fieldX, BitVec.extractLsb'_or])

theorem ldVxMem (x : Reg) : Statement (.ldVxMem x) :=
  of_row ⟨0xF065, 0xF0FF, fun w => .ldVxMem (fieldX w)⟩ (by simp [opcodeTable, opcodeRowsF])
    (by simp [encode, wordX_eq, BitVec.and_or_distrib_right]) (by simp [encode, wordX_eq, fieldX, BitVec.extractLsb'_or])

end Sys2Proof.Laws.RowFits
end

