-- ==== Sys2Proof/Laws/Step.lean ====
section
/-! SUPPORT. What one instruction slot, the loop of a tick and a tick can do, said once. -/

namespace Sys2Proof.Machine

@[simp] theorem andThen_next (s : State) (k : State → Host.Outcome State Fault Refusal) : andThen (.next s) k = k s := rfl

/-- A chain ends in a next state only through a next state of its first part. -/
theorem andThen_eq_next {o : Host.Outcome State Fault Refusal} {k : State → Host.Outcome State Fault Refusal} {t : State}
    (h : andThen o k = .next t) : ∃ u, o = .next u ∧ k u = .next t := by
  cases o with
  | next u => exact ⟨u, rfl, h⟩
  | fault f => exact absurd h (by simp [andThen])
  | refused r => exact absurd h (by simp [andThen])

/-- The fetch checks pass exactly where `PC` is even and at most `0xFFE` (R93). -/
theorem fetchFault_eq_none {s : State} : fetchFault s = none ↔ s.pc.getLsbD 0 = false ∧ s.pc.toNat ≤ 0xFFE := by
  unfold fetchFault
  split
  · next h => simp [h]
  · next h =>
    split
    · simp; omega
    · simp only [true_iff]; exact ⟨by simpa using h, by omega⟩

/-- One slot: a fetch fault, an illegal word, or the decoded instruction's effect (R92). -/
theorem instrStep_cases {s : State} {o : Host.Outcome State Fault Refusal} (h : instrStep s = o) :
    (∃ f, fetchFault s = some f ∧ o = .next (s.raise f)) ∨
    (fetchFault s = none ∧ decode s.fetched = .error (.illegal s.fetched) ∧
      o = .next (s.raise (.illegalInstruction s.fetched))) ∨
    (∃ i, fetchFault s = none ∧ decode s.fetched = .ok i ∧ o = exec i s) := by
  subst h
  unfold instrStep
  split
  · next f hf => exact .inl ⟨f, hf, rfl⟩
  · next hf =>
    split
    · next e he =>
      obtain ⟨rfl, -⟩ := decode_error he
      exact .inr (.inl ⟨hf, he, rfl⟩)
    · next i hi => exact .inr (.inr ⟨i, hf, hi, rfl⟩)

/-- A property that every slot of a running core keeps holds after the later slots of a tick. -/
theorem moreSlots_induct {P : State → Prop}
    (hstep : ∀ s t, P s → s.rs = .running → instrStep s = .next t → P t) :
    ∀ {k : Nat} {s t : State}, P s → moreSlots k s = .next t → P t
  | 0, s, t, hs, h => by
    simp only [moreSlots, Host.Outcome.next.injEq] at h
    exact h ▸ hs
  | k + 1, s, t, hs, h => by
    unfold moreSlots at h
    split at h
    · next hr =>
      obtain ⟨u, hu, hk⟩ := andThen_eq_next h
      exact moreSlots_induct hstep (hstep s u hs hr hu) hk
    · simp only [Host.Outcome.next.injEq] at h
      exact h ▸ hs

/-- A property that every slot of a core that has not halted keeps holds after the loop of a tick. -/
theorem slots_induct {P : State → Prop}
    (hstep : ∀ s t, P s → s.rs ≠ .halted → instrStep s = .next t → P t) {k : Nat} {s t : State}
    (hs : P s) (hr : s.rs ≠ .halted) (h : slots k s = .next t) : P t := by
  cases k with
  | zero =>
    simp only [slots, Host.Outcome.next.injEq] at h
    exact h ▸ hs
  | succ k =>
    obtain ⟨u, hu, hk⟩ := andThen_eq_next h
    exact moreSlots_induct (fun s t hs hr hi => hstep s t hs (by simp [hr]) hi) (hstep s u hs hr hu) hk

/-- A tick: nothing in `Halted`; otherwise the slots on the sampled inputs and then the end of the tick (R90, R91). -/
theorem tick_cases {s t : State} (h : tick s = .next t) :
    (s.rs = .halted ∧ t = s) ∨ (s.rs ≠ .halted ∧ ∃ u, slots s.ipt s.sampleKeys = .next u ∧ t = endTick u) := by
  unfold tick at h
  split at h
  · next hr => exact .inl ⟨hr, by simpa using h.symm⟩
  · next hr =>
    obtain ⟨u, hu, hk⟩ := andThen_eq_next h
    exact .inr ⟨hr, u, hu, by simpa using hk.symm⟩

end Sys2Proof.Machine
end

