-- ==== Sys2Proof/Tests/Slice0.lean ====
section
/-! SUPPORT. Tests on fixed values, and a witness for the hypotheses of each statement. Expected results come from the
"Encoding" lines of the spec's rules and from the vectors V40 to V47 of `95_test_vectors.md`, whose numbers the names end
in. -/

namespace Sys2Proof.Tests

open Sys2Proof Sys2Proof.Machine

/-! ## Decoding: every constructor, by a word written out from the encoding of its rule -/

theorem test_decode_control_flow :
    decode 0b0000000011101110 = .ok .ret ∧ decode 0b0001111111111111 = .ok (.jp 0xFFF) ∧
    decode 0b0010001100000000 = .ok (.call 0x300) ∧ decode 0b1011111111111110 = .ok (.jpV0 0xFFE) := by decide

theorem test_decode_skips :
    decode 0b0011000000000101 = .ok (.seImm 0 5) ∧ decode 0b0100111110100000 = .ok (.sneImm 15 0xA0) ∧
    decode 0b0101000100100000 = .ok (.seReg 1 2) ∧ decode 0b1001000100100000 = .ok (.sneReg 1 2) := by decide

theorem test_decode_loads_and_logic :
    decode 0b0110101001000010 = .ok (.ldImm 10 0x42) ∧ decode 0b0111000000000011 = .ok (.addImm 0 3) ∧
    decode 0b1000000100100000 = .ok (.ldReg 1 2) ∧ decode 0b1000000100100001 = .ok (.orReg 1 2) ∧
    decode 0b1000000100100010 = .ok (.andReg 1 2) ∧ decode 0b1000000100100011 = .ok (.xorReg 1 2) := by decide

theorem test_decode_flag_arithmetic :
    decode 0b1000000100100100 = .ok (.addReg 1 2) ∧ decode 0b1000000100100101 = .ok (.subReg 1 2) ∧
    decode 0b1000000100100110 = .ok (.shr 1) ∧ decode 0b1000000100100111 = .ok (.subnReg 1 2) ∧
    decode 0b1000000111111110 = .ok (.shl 1) := by decide

theorem test_decode_index_and_memory :
    decode 0b1010001100000000 = .ok (.ldI 0x300) ∧ decode 0b1111000100011110 = .ok (.addIVx 1) ∧
    decode 0b1111001000101001 = .ok (.ldFVx 2) ∧ decode 0b1111000000110011 = .ok (.ldBVx 0) ∧
    decode 0b1111001001010101 = .ok (.ldMemVx 2) ∧ decode 0b1111111101100101 = .ok (.ldVxMem 15) := by decide

theorem test_decode_display :
    decode 0b0000000011100000 = .ok .cls ∧ decode 0b1101000000010101 = .ok (.drw 0 1 5) ∧
    decode 0b1101000000000000 = .ok (.drw 0 0 0) := by decide

theorem test_decode_keypad :
    decode 0b1110000110011110 = .ok (.skp 1) ∧ decode 0b1110000110100001 = .ok (.sknp 1) ∧
    decode 0b1111000100001010 = .ok (.ldVxK 1) := by decide

theorem test_decode_timers_and_random :
    decode 0b1111000100000111 = .ok (.ldVxDt 1) ∧ decode 0b1111000100010101 = .ok (.ldDtVx 1) ∧
    decode 0b1111001000011000 = .ok (.ldStVx 2) ∧ decode 0b1100000011111111 = .ok (.rnd 0 0xFF) := by decide

/-- The illegal words of the decode samples (R78). -/
theorem test_decode_illegal :
    [0x0000, 0x00E1, 0x00EF, 0x00FE, 0x0123, 0x0FFF, 0x5121, 0x512F, 0x9121, 0x8128, 0x8129, 0x812A, 0x812B, 0x812C,
      0x812D, 0x812F, 0xE19F, 0xE1A0, 0xE100, 0xF100, 0xF108, 0xF116, 0xF11F, 0xF130, 0xF156, 0xF175, 0xF185,
      0xF1FF].all (fun w => decide (decode w = .error (.illegal w))) = true := by decide

/-- The table has the 34 rows of R76. -/
theorem test_opcode_table_has_34_rows : opcodeTable.length = 34 := by decide

/-- Bytes are read high byte first, and fewer than two are no instruction (R51, R70). -/
theorem test_decode_bytes :
    decodeBytes [0x12, 0x34, 0x60] = .ok (.jp 0x234, [0x60]) ∧ decodeBytes [0x12] = .error .truncated ∧
    decodeBytes [] = .error .truncated ∧ encodeBytes (.jp 0x234) = [0x12, 0x34] := by decide

/-- The opcode table's bit 0 is bit 0 of the one instruction word. -/
theorem test_decode_table_word :
    decodeTableWord 16 0x00E0 = some .cls ∧ decodeTableWord 16 0xD015 = some (.drw 0 1 5) ∧
    decodeTableWord 16 0x0000 = none := by decide

/-! ## WellFormed: one ill-formed term for each check -/

theorem test_wellFormed_accepts_defaults : defaultParams.wellFormed = true := by decide

theorem test_wellFormed_refuses_base : ({ defaultParams with loadBase := 0x300 } : ResetParams).wellFormed = false := by
  decide

/-- One byte more than fits at `0x600` (R242). -/
theorem test_wellFormed_refuses_long_rom :
    ({ defaultParams with loadBase := 0x600, rom := List.replicate 2561 0 } : ResetParams).wellFormed = false := by
  decide +kernel

theorem test_wellFormed_refuses_short_font :
    ({ defaultParams with font := defaultFont.tail } : ResetParams).wellFormed = false := by decide

theorem test_wellFormed_refuses_no_slot : ({ defaultParams with ipt := 0 } : ResetParams).wellFormed = false := by decide

/-! ## One slot of each instruction -/

/-- The state after one instruction slot that finds the word `w` at `PC`. -/
def slot (w : Nat) (s : State) : State :=
  match instrStep (s.withFetchWord 16 w) with
  | .next t => t
  | _ => s

/-- The state after one tick that finds the word `w` at `PC`. -/
def tickWith (w : Nat) (s : State) : State :=
  match step (s.withFetchWord 16 w) with
  | .next t => t
  | _ => s

/-- The reset state with `V1`, `V2` and `VF` set. -/
def regs (v1 v2 vf : Byte) : State := ((State.reset.setReg 1 v1).setReg 2 v2).setReg 15 vf

/-- The reset state with `I` and `V0` set. -/
def indexed (i : Word) (v0 : Byte) : State := (State.reset.setI i).setReg 0 v0

/-- The reset state with a live stack of `n` entries, the last one `ra`. -/
def stacked (n : Fin 17) (ra : Word) : State := { State.reset with sp := n, stack := Vector.replicate 16 ra }

/-- `V1` and `VF` of a state. -/
def v1vf (s : State) : Byte × Byte := (s.reg 1, s.reg 15)

/-- The fault record of a state and its `PC`. -/
def record (s : State) : RunState × BitVec 4 × Word × Word := s.status

/-! ### Fetch and cycle -/

theorem test_fetch_misaligned_V40_4 :
    record (slot 0x6001 (State.reset.setPc 0xFFF)) = (.halted, 4, 0x0FFF, 0x0FFF) := by decide

theorem test_fetch_last_word_V40_3 :
    (slot 0x6001 (State.reset.setPc 0xFFE)).pc = 0x1000 ∧
    record (slot 0x6001 (State.reset.setPc 0x1000)) = (.halted, 5, 0x1000, 0x1000) := by decide

theorem test_illegal_word : record (slot 0x0000 State.reset) = (.halted, 1, 0x0000, 0x0200) := by decide

theorem test_tick_decrements_after_load_V40_9 : (tickWith 0xF015 (indexed 0 3)).dt = 2 := by decide

/-- `IPT = 2`: both slots run, then one `TimerStep`. -/
theorem test_two_slots_V40_8 :
    let s := tickWith 0x6005 { State.reset with ipt := 2, dt := 9, mem := State.reset.mem.writeBytes 0x202 [0x70, 0x03] }
    s.reg 0 = 8 ∧ s.pc = 0x204 ∧ s.dt = 8 := by decide

theorem test_step_runs_withFetchWord :
    step (State.reset.withFetchWord 16 0xA300) =
      .next { State.reset.withFetchWord 16 0xA300 with
        i := 0x300, pc := 0x202, keysDown := Config.freeKeysDown 0, keyEvent := Config.freeKeyEvent 0, ticks := 1 } := rfl

/-! ### Control transfers -/

theorem test_ret_V41_7 :
    (slot 0x00EE (stacked 1 0x204)).pc = 0x204 ∧ (slot 0x00EE (stacked 1 0x204)).sp = 0 ∧
    (slot 0x00EE (stacked 1 0x204)).stack[0] = 0x204 := by decide

theorem test_ret_empty_V41_8 : record (slot 0x00EE State.reset) = (.halted, 3, 0, 0x200) := by decide

theorem test_jp_self_V41_2 : (slot 0x1200 State.reset).pc = 0x200 := by decide

theorem test_call_V41_5 :
    (slot 0x2300 (stacked 15 0)).pc = 0x300 ∧ (slot 0x2300 (stacked 15 0)).sp = 16 ∧
    (slot 0x2300 (stacked 15 0)).stack[15] = 0x202 := by decide

theorem test_call_full_V41_6 : record (slot 0x2300 (stacked 16 0)) = (.halted, 2, 16, 0x200) := by decide

theorem test_jpV0_V41_11 : (slot 0xBFFF (indexed 0 0xFF)).pc = 0x10FE := by decide

/-! ### Skips -/

theorem test_seImm_V42_1_2 :
    (slot 0x3005 (indexed 0 5)).pc = 0x204 ∧ (slot 0x3005 (indexed 0 6)).pc = 0x202 := by decide

theorem test_sneImm_V42_3_4 :
    (slot 0x4005 (indexed 0 5)).pc = 0x202 ∧ (slot 0x4005 (indexed 0 6)).pc = 0x204 := by decide

theorem test_seReg_V42_5_6 :
    (slot 0x5120 (regs 0x7F 0x7F 0)).pc = 0x204 ∧ (slot 0x5120 (regs 0x7F 0x80 0)).pc = 0x202 := by decide

theorem test_sneReg_V42_8_9 :
    (slot 0x9120 (regs 0x7F 0x80 0)).pc = 0x204 ∧ (slot 0x9120 (regs 0x7F 0x7F 0)).pc = 0x202 := by decide

/-! ### Loads, logic and arithmetic -/

theorem test_ldImm_V43_1 : (slot 0x6A42 State.reset).reg 10 = 0x42 := by decide

theorem test_addImm_V43_2 : (slot 0x7003 (indexed 0 0xFE)).reg 0 = 1 ∧ (slot 0x7003 (indexed 0 0xFE)).reg 15 = 0 := by
  decide

theorem test_ldReg_V43_5 : v1vf (slot 0x8120 (regs 0 0x9C 7)) = (0x9C, 7) := by decide

theorem test_orReg_V43_6 : v1vf (slot 0x8121 (regs 0x0F 0xF0 7)) = (0xFF, 7) := by decide

theorem test_andReg_V43_9 : v1vf (slot 0x8122 (regs 0xFC 0x3F 7)) = (0x3C, 7) := by decide

theorem test_xorReg_V43_10 : v1vf (slot 0x8123 (regs 0xFF 0x0F 7)) = (0xF0, 7) := by decide

theorem test_addReg_V43_14_15 :
    v1vf (slot 0x8124 (regs 0xFF 0xFF 7)) = (0xFE, 1) ∧ v1vf (slot 0x8124 (regs 0xF0 0x0F 7)) = (0xFF, 0) := by decide

theorem test_addReg_into_VF_V43_41 : (slot 0x8F14 (regs 0x20 0 0x10)).reg 15 = 0x30 := by decide

theorem test_subReg_V43_19_20 :
    v1vf (slot 0x8125 (regs 3 5 7)) = (0xFE, 0) ∧ v1vf (slot 0x8125 (regs 7 7 7)) = (0, 0) := by decide

theorem test_subReg_from_VF_V43_50 : v1vf (slot 0x81F5 (regs 5 0 1)) = (4, 1) := by decide

theorem test_shr_V43_24_25 :
    v1vf (slot 0x8126 (regs 5 0 7)) = (2, 1) ∧ v1vf (slot 0x8126 (regs 0x80 0xFF 7)) = (0x40, 0) := by decide

theorem test_shr_VF_V43_45 : (slot 0x8F16 (regs 0 0 4)).reg 15 = 2 := by decide

theorem test_subnReg_V43_27_30 :
    v1vf (slot 0x8127 (regs 3 5 7)) = (2, 1) ∧ v1vf (slot 0x8127 (regs 0 0xFF 7)) = (0xFF, 1) := by decide

theorem test_subnReg_into_VF_V43_46 : (slot 0x8F17 (regs 5 0 3)).reg 15 = 2 := by decide

theorem test_shl_V43_31_34 :
    v1vf (slot 0x812E (regs 0x81 0 7)) = (2, 1) ∧ v1vf (slot 0x812E (regs 0x7F 0 7)) = (0xFE, 0) := by decide

theorem test_shl_VF_V43_55 : (slot 0x8FFE (regs 0 0 0xC0)).reg 15 = 0x80 := by decide

/-! ### Index and memory -/

theorem test_ldI_V44_2 : (slot 0xAFFF State.reset).i = 0xFFF := by decide

theorem test_addIVx_V44_5 : (slot 0xF11E ((regs 0xFE 0 7).setI 0xF01)).i = 0xFFF := by decide

theorem test_addIVx_fault_V44_7 :
    record (slot 0xF11E ((regs 0xFF 0 7).setI 0xFFF)) = (.halted, 7, 0x10FE, 0x200) ∧
    (slot 0xF11E ((regs 0xFF 0 7).setI 0xFFF)).i = 0xFFF := by decide

theorem test_ldFVx_V44_10 : (slot 0xF029 (indexed 0 0xFF)).i = 0x4FB := by decide

theorem test_ldBVx_V44_11 : (slot 0xF033 (indexed 0x300 0xEA)).mem.readBytes 0x300 3 = [2, 3, 4] := by decide

theorem test_ldBVx_fault_V44_15 :
    record (slot 0xF033 (indexed 0xFFE 0xEA)) = (.halted, 6, 0x1000, 0x200) ∧
    (slot 0xF033 (indexed 0xFFE 0xEA)).mem.readBytes 0xFFE 2 = [0, 0] := by decide

theorem test_ldMemVx_V44_16 :
    (slot 0xF255 ((regs 2 3 7).setI 0x300)).mem.readBytes 0x300 4 = [0, 2, 3, 0] ∧
    (slot 0xF255 ((regs 2 3 7).setI 0x300)).i = 0x300 := by decide

theorem test_ldMemVx_fault_V44_18 : record (slot 0xF155 (indexed 0xFFF 1)) = (.halted, 6, 0x1000, 0x200) := by decide

/-- All sixteen registers from the font at 0. -/
theorem test_ldVxMem_V44_22 :
    (slot 0xFF65 State.reset).v.toList =
      [0xF0, 0x90, 0x90, 0x90, 0xF0, 0x20, 0x60, 0x20, 0x20, 0x70, 0xF0, 0x10, 0xF0, 0x80, 0xF0, 0xF0] := by decide

theorem test_ldVxMem_fault_V44_23 : record (slot 0xF265 (indexed 0xFFE 1)) = (.halted, 6, 0x1000, 0x200) := by decide

/-! ### Display -/

/-- The pixels set on one row of a display. -/
def rowPixels (s : State) (row : Nat) : List Nat := (List.range 64).filter fun col => s.pixel row col

theorem test_cls_V45_18 : rowPixels (slot 0x00E0 (State.reset.setDisp 0xFF)) 0 = [] := by decide +kernel

/-- Glyph `0` at the corner. -/
theorem test_drw_V45_1 :
    (List.range 5).map (rowPixels (slot 0xD005 State.reset)) =
      [[0, 1, 2, 3], [0, 3], [0, 3], [0, 3], [0, 1, 2, 3]] ∧ (slot 0xD005 State.reset).reg 15 = 0 := by decide +kernel

/-- Clipping at column 63, an erased pixel, and a sprite that leaves memory. -/
theorem test_drw_V45_5_12_15 :
    rowPixels (slot 0xD121 ((regs 60 0 7).setMem (State.reset.mem.write 0 0xFF))) 0 = [60, 61, 62, 63] ∧
    rowPixels (slot 0xD121 (((regs 0 0 7).setMem (State.reset.mem.write 0 0xFF)).setDisp 1)) 0 = [1, 2, 3, 4, 5, 6, 7] ∧
    (slot 0xD121 (((regs 0 0 7).setMem (State.reset.mem.write 0 0xFF)).setDisp 1)).reg 15 = 1 ∧
    record (slot 0xD123 ((regs 0 0 1).setI 0xFFE)) = (.halted, 6, 0x1000, 0x200) ∧
    (slot 0xD123 ((regs 0 0 1).setI 0xFFE)).reg 15 = 1 := by decide +kernel

/-! ### Keypad -/

/-- The reset state with the latched samples set. -/
def keyed (v0 : Byte) (down : BitVec 16) (event : Option Key) : State :=
  { indexed 0 v0 with keysDown := down, keyEvent := event }

theorem test_skp_V46_1_8 :
    (slot 0xE09E (keyed 5 0x0020 none)).pc = 0x204 ∧ (slot 0xE09E (keyed 5 0 (some 5))).pc = 0x202 := by decide

theorem test_skp_fault_V46_6 : record (slot 0xE09E (keyed 0x10 0xFFFF none)) = (.halted, 8, 0x10, 0x200) := by decide

theorem test_sknp_V46_3_4 :
    (slot 0xE0A1 (keyed 5 0 none)).pc = 0x204 ∧ (slot 0xE0A1 (keyed 5 0x0020 none)).pc = 0x202 := by decide

theorem test_sknp_fault_V46_7 : record (slot 0xE0A1 (keyed 0xFF 0 none)) = (.halted, 8, 0xFF, 0x200) := by decide

theorem test_ldVxK_waits_V46_9 :
    let s := tickWith 0xF30A { State.reset with dt := 9, keyInputs := [⟨0xFFFF, none⟩] }
    s.pc = 0x200 ∧ s.rs = .awaitingKey ∧ s.reg 3 = 0 ∧ s.dt = 9 := by decide

theorem test_ldVxK_event_V46_10 :
    let s := tickWith 0xF30A { State.reset with dt := 9, rs := .awaitingKey, keyInputs := [⟨0, some 7⟩] }
    s.pc = 0x202 ∧ s.rs = .running ∧ s.reg 3 = 7 ∧ s.dt = 8 := by decide

/-! ### Timers and random -/

theorem test_ldVxDt_V47_1 : (slot 0xF107 (State.reset.setDt 0x2A)).reg 1 = 0x2A := by decide

theorem test_ldDtVx_V47_2 :
    (slot 0xF115 (regs 0x3C 0 0)).dt = 0x3C ∧ (tickWith 0xF115 (regs 0x3C 0 0)).dt = 0x3B := by decide

theorem test_ldStVx_V47_5_6 :
    (tickWith 0xF218 (regs 0 5 0)).st = 4 ∧ (tickWith 0xF218 (regs 0 5 0)).tone = true ∧
    (tickWith 0xF218 (regs 0 1 0)).tone = false := by decide

theorem test_rnd_V47_8_11 :
    (slot 0xC10F { State.reset with rndInputs := [0xAB] }).reg 1 = 0x0B ∧
    (slot 0xCFAA { State.reset with rndInputs := [0xFF, 1] }).reg 15 = 0xAA ∧
    (slot 0xCFAA { State.reset with rndInputs := [0xFF, 1] }).rndInputs = [1] := by decide

/-! ### Memory and reset -/

/-- Writing what an unlisted address reads as removes the cell. -/
theorem test_memory_canonical :
    Memory.write (Memory.write [] 0x300 5) 0x300 0 = [] ∧ Memory.write [] 0 0xF0 = [] ∧
    Memory.write (Memory.write [] 0x300 5) 0x200 6 = [(0x200, 6), (0x300, 5)] := by decide

/-- A ROM at `0x600` and a font of zeros: the bytes are where reset puts them. -/
theorem test_reset_with_parameters :
    resetMemory { loadBase := 0x600, rom := [0x12, 0x34], font := List.replicate 80 0, ipt := 1 }
      |>.readBytes 0x5FF 4 |> (· = [0, 0x12, 0x34, 0]) := by decide

/-! ## A witness for the hypotheses of each statement -/

theorem test_witness_DecodeFollowsTheDisjointTable :
    (∃ r ∈ opcodeTable, (0x1234 : Word) &&& r.mask = r.pattern) ∧
    ∀ r ∈ opcodeTable, (0x5121 : Word) &&& r.mask ≠ r.pattern := by decide

theorem test_witness_OnlyShiftsIgnoreAField :
    decode 0x1234 = .ok (.jp 0x234) ∧ (∀ x, Instr.jp 0x234 ≠ .shr x) ∧ ∀ x, Instr.jp 0x234 ≠ .shl x := by decide

/-- The first and the last address at which a word can be fetched. -/
theorem test_witness_FetchIsBigEndian : 0 % 2 = 0 ∧ 0 ≤ 0xFFE ∧ 0xFFE % 2 = 0 ∧ 0xFFE ≤ 0xFFE := by decide

/-- `RET` on one entry, on sixteen, and on none. -/
theorem test_witness_RetAndJumpsGoToAbsoluteTargets :
    (stacked 1 0x204).sp.val ≠ 0 ∧ (stacked 16 0x204).sp.val ≠ 0 ∧ (stacked 0 0).sp.val = 0 := by decide

/-- `CALL` with no entry, with fifteen, and with sixteen. -/
theorem test_witness_CallPushesTheReturnAddress :
    (stacked 0 0).sp.val < 16 ∧ (stacked 15 0).sp.val < 16 ∧ (stacked 16 0).sp.val = 16 := by decide

theorem test_witness_RetReturnsAfterItsCall :
    (stacked 15 0).sp.val < 16 ∧ ∃ t, exec (.call 0x300) (stacked 15 0) = .next t ∧
      ∃ u : State, u.sp = t.sp ∧ u.stack = t.stack := ⟨by decide, _, rfl, _, rfl, rfl⟩

theorem test_witness_FlagArithmeticWritesResultAndFlag : (0 : Reg) ≠ 15 ∧ (14 : Reg) ≠ 15 := by decide

/-- The largest sum that does not fault, and the smallest that does. -/
theorem test_witness_IndexArithmetic :
    (indexed 0xFFF 0).i.toNat + (indexed 0xFFF 0).v[(0 : Reg)].toNat ≤ 0xFFF ∧
    0xFFF < (indexed 0xFFF 1).i.toNat + (indexed 0xFFF 1).v[(0 : Reg)].toNat := by decide

/-- The last `I` at which `LD B` stores, and the first at which it faults. -/
theorem test_witness_BcdStoresThreeDigits :
    (indexed 0xFFD 7).mem.wf = true ∧ (indexed 0xFFD 7).i.toNat ≤ 0xFFD ∧ 0xFFD < (indexed 0xFFE 7).i.toNat := by decide

/-- The last window of sixteen registers, the last of one, and the first of each that faults: for the store, the load,
and both together. -/
theorem test_witness_BlockTransfers :
    (indexed 0xFF0 1).mem.wf = true ∧ (indexed 0xFF0 1).i.toNat + (15 : Reg).val ≤ 0xFFF ∧
    (indexed 0xFFF 1).i.toNat + (0 : Reg).val ≤ 0xFFF ∧ 0xFFF < (indexed 0xFF1 1).i.toNat + (15 : Reg).val ∧
    0xFFF < (indexed 0x1000 1).i.toNat + (0 : Reg).val := by decide

/-- A fetch at the stored byte, and a fetch whose second byte is the stored one. -/
theorem test_witness_FetchSeesTheStoreBefore :
    (indexed 0x202 1).mem.wf = true ∧ (indexed 0x202 1).i.toNat + (0 : Reg).val ≤ 0xFFF ∧
    (∃ t, exec (.ldMemVx 0) (indexed 0x202 1) = .next t) ∧ 0x202 = (indexed 0x202 1).i.toNat + (0 : Reg).val ∧
    0x201 + 1 = (indexed 0x202 1).i.toNat + (0 : Reg).val := ⟨by decide, by decide, ⟨_, rfl⟩, by decide, by decide⟩

/-- No row at any `I`, one row at the last byte, and the first `I` at which fifteen rows fault. -/
theorem test_witness_DrawFlipsThePixelsUnderTheSprite :
    (0 : Rows).val = 0 ∧ (indexed 0xFFF 0).i.toNat + (1 : Rows).val - 1 ≤ 0xFFF ∧
    (indexed 0xFF1 0).i.toNat + (15 : Rows).val - 1 ≤ 0xFFF ∧ 1 ≤ (15 : Rows).val ∧
    0xFFF < (indexed 0xFF2 0).i.toNat + (15 : Rows).val - 1 := by decide

/-- Both clauses of the collision rule: a lit pixel under a sprite bit of 1, and a dark display. -/
theorem test_witness_CollisionFlagIsAnErasedPixel :
    ((State.reset.setDisp 1).i.toNat + (5 : Rows).val - 1 ≤ 0xFFF ∧ (State.reset.setDisp 1).pixel 0 0 = true ∧
      (State.reset.setDisp 1).spriteBit 0 0 5 0 0 = true) ∧
    ∀ row col, row < 32 → col < 64 → State.reset.pixel row col = true → State.reset.spriteBit 0 0 5 row col = false :=
  ⟨by decide +kernel, fun row col _ _ h => by simp [State.pixel, State.reset] at h⟩

/-- A first draw that erases nothing. -/
theorem test_witness_DrawingTwiceRestoresTheDisplay :
    (0 : Reg) ≠ 15 ∧ State.reset.i.toNat + (5 : Rows).val - 1 ≤ 0xFFF ∧ (slot 0xD005 State.reset).v[(15 : Reg)] = 0 := by
  decide +kernel

/-- The last key index and the first value that is none. -/
theorem test_witness_KeySkipsTestTheSampledLevel :
    (keyed 15 0 none).v[(0 : Reg)].toNat ≤ 15 ∧ 15 < (keyed 16 0 none).v[(0 : Reg)].toNat := by decide

theorem test_witness_KeyLoadTakesTheEventOrWaits :
    (keyed 0 0 (some 15)).keyEvent = some 15 ∧ (keyed 0 0 none).keyEvent = none := by decide

/-- A state with the word `w` at `pc` and the coming tick's sample listed. -/
def ready (w : Nat) (pc : Word) (event : Option Key) : State :=
  ({ State.reset with pc := pc, keyInputs := [⟨0, event⟩] } : State).withFetchWord 16 w

/-- At the first and the last fetchable address. -/
theorem test_witness_TickFreezesTheCoreWithoutAKeyEvent :
    [(0x000 : Word), 0xFFE].all (fun pc => decide (
      (ready 0xF30A pc none).rs ≠ .halted ∧ 1 ≤ (ready 0xF30A pc none).ipt ∧
      (ready 0xF30A pc none).pc.toNat % 2 = 0 ∧ (ready 0xF30A pc none).pc.toNat ≤ 0xFFE ∧
      decode ((ready 0xF30A pc none).mem.fetch16 (ready 0xF30A pc none).pc.toNat) = .ok (.ldVxK 3) ∧
      (ready 0xF30A pc none).nextKeySample.keyEvent = none)) = true := by decide

theorem test_witness_TickWithTheKeyEventRunsOn :
    (ready 0xF30A 0x200 (some 7)).rs ≠ .halted ∧ (ready 0xF30A 0x200 (some 7)).ipt = 1 ∧
    (ready 0xF30A 0x200 (some 7)).pc.toNat % 2 = 0 ∧ (ready 0xF30A 0x200 (some 7)).pc.toNat ≤ 0xFFE ∧
    decode ((ready 0xF30A 0x200 (some 7)).mem.fetch16 0x200) = .ok (.ldVxK 3) ∧
    (ready 0xF30A 0x200 (some 7)).nextKeySample.keyEvent = some 7 := by decide

theorem test_witness_TimerMovesAndMaskedRandomByte :
    ({ State.reset with rndInputs := [0xAB, 1] } : State).rndInputs = 0xAB :: [1] := by decide

theorem test_witness_TimerLoadIsDecrementedInItsTick :
    (ready 0xF115 0x200 none).rs = .running ∧ (ready 0xF115 0x200 none).ipt = 1 ∧
    (ready 0xF115 0x200 none).pc.toNat % 2 = 0 ∧ (ready 0xF115 0x200 none).pc.toNat ≤ 0xFFE ∧
    decode ((ready 0xF115 0x200 none).mem.fetch16 0x200) = .ok (.ldDtVx 1) ∧
    decode ((ready 0xF118 0x200 none).mem.fetch16 0x200) = .ok (.ldStVx 1) := by decide

/-- An odd `PC`, also above `0xFFE`; the first even one out of range; the last in range, on a legal and an illegal word. -/
theorem test_witness_SlotRunsTheDecodedInstruction :
    (State.reset.setPc 0x10FD).pc.toNat % 2 = 1 ∧
    ((State.reset.setPc 0x1000).pc.toNat % 2 = 0 ∧ 0xFFE < (State.reset.setPc 0x1000).pc.toNat) ∧
    ((ready 0x1234 0xFFE none).pc.toNat % 2 = 0 ∧ (ready 0x1234 0xFFE none).pc.toNat ≤ 0xFFE ∧
      decode ((ready 0x1234 0xFFE none).mem.fetch16 0xFFE) = .ok (.jp 0x234)) ∧
    decode ((ready 0x5121 0xFFE none).mem.fetch16 0xFFE) = .error (.illegal 0x5121) := by decide

/-- A slot that leaves the core running, and one that leaves it waiting. -/
theorem test_witness_StepIsSampleThenInstructionThenTimers :
    ∀ w ∈ [0x6105, 0xF10A], (ready w 0x200 none).rs ≠ .halted ∧ (ready w 0x200 none).ipt = 1 ∧
      (ready w 0x200 none).pc.toNat % 2 = 0 ∧ (ready w 0x200 none).pc.toNat ≤ 0xFFE ∧
      ∃ i t, decode ((ready w 0x200 none).mem.fetch16 0x200) = .ok i ∧
        exec i { ready w 0x200 none with
          keysDown := (ready w 0x200 none).nextKeySample.keysDown
          keyEvent := (ready w 0x200 none).nextKeySample.keyEvent
          keyInputs := (ready w 0x200 none).keyInputs.tail
          ticks := (ready w 0x200 none).ticks + 1 } = .next t ∧
        (t.rs = .running ∧ w = 0x6105 ∨ t.rs ≠ .running ∧ w = 0xF10A) := by
  intro w hw
  simp only [List.mem_cons, List.not_mem_nil, or_false] at hw
  obtain rfl | rfl := hw
  · exact ⟨by decide, by decide, by decide, by decide, .ldImm 1 5, _, by decide, rfl, by decide⟩
  · exact ⟨by decide, by decide, by decide, by decide, .ldVxK 1, _, by decide, rfl, by decide⟩

/-- Two slots a tick: the first leaves the core running (and the second then ends it), or waiting. -/
theorem test_witness_LaterSlotsRunWhileRunning :
    ({ ready 0x6105 0x200 none with ipt := 2 } : State).rs ≠ .halted ∧
    ({ ready 0x6105 0x200 none with ipt := 2 } : State).ipt = 0 + 2 ∧
    (∃ t, instrStep ({ ready 0x6105 0x200 none with ipt := 2 } : State).sampleKeys = .next t ∧ t.rs = .running ∧
      ∃ u, slots 1 t = .next u ∧ u.rs = .halted) ∧
    ∃ t, instrStep ({ ready 0xF10A 0x200 none with ipt := 2 } : State).sampleKeys = .next t ∧ t.rs = .awaitingKey :=
  ⟨by decide, by decide, ⟨_, rfl, by decide, _, rfl, by decide⟩, _, rfl, by decide⟩

theorem test_witness_HaltedTickChangesNothing : (State.reset.raise .stackUnderflow).rs = .halted := by decide

/-- The premises of the statements "for every instruction that answers a next state" (`ProgramCounterByClass`,
`OnlyFlagWritersTouchVF`, `EachRegisterHasItsWriters`, `FaultsArePreciseAndListed`, `OnlyJumpsMakeThePcOdd`,
`KeyInputsReachOnlyTheKeyInstructions`): one that completes at an odd target, and one that faults. -/
theorem test_witness_ForEveryInstruction :
    (∃ t, exec (.jp 0x205) State.reset = .next t ∧ t.rs ≠ .halted ∧ t.pc.toNat % 2 = 1) ∧
    (∃ t, exec .ret State.reset = .next t ∧ t.rs = .halted) ∧ State.reset.rs ≠ .halted ∧
    State.reset.pc.toNat % 2 = 0 ∧ ∀ j : Fin 16, State.reset.stack[j].toNat % 2 = 0 :=
  ⟨⟨_, rfl, by decide, by decide⟩, ⟨_, rfl, by decide⟩, by decide, by decide, by decide⟩

/-- Two states that differ in a dead entry. -/
theorem test_witness_DeadStackEntriesCannotBeSeen :
    sameButDeadEntries (ready 0x00EE 0x200 none) { ready 0x00EE 0x200 none with stack := Vector.replicate 16 0x208 } ∧
    (ready 0x00EE 0x200 none).stack[0] ≠ 0x208 ∧ ∃ t, step (ready 0x00EE 0x200 none) = .next t :=
  ⟨⟨rfl, fun j h => absurd h (Nat.not_lt_zero _)⟩, by decide, _, rfl⟩

/-- A waiting core with live entries meets the invariant, and a step follows. -/
theorem test_witness_StepKeepsTheInvariant :
    ({ ready 0xF30A 0x200 none with rs := .awaitingKey, sp := 1, stack := Vector.replicate 16 0x204 } : State).Inv ∧
    ∃ t, step { ready 0xF30A 0x200 none with rs := .awaitingKey, sp := 1, stack := Vector.replicate 16 0x204 } =
      .next t := by
  refine ⟨⟨by decide, by decide, by decide, fun _ => ⟨by decide, 3, by decide⟩, by decide, by decide, by decide,
    by decide⟩, _, rfl⟩

/-- Parameters at a load base other than the default, with a ROM and two slots. -/
def otherParams : ResetParams := { loadBase := 0x600, rom := [0x12, 0x00], font := List.replicate 80 7, ipt := 2 }

theorem test_witness_ResetWithAnyParametersMeetsTheInvariant :
    ∃ t, State.resetWith otherParams = .next t ∧ t.pc = 0x600 ∧ t.ipt = 2 := ⟨_, rfl, by decide, by decide⟩

/-- An address in the font, in the ROM, between them, and after the ROM. -/
theorem test_witness_ResetLaysOutFontAndRom :
    otherParams.wellFormed = true ∧ 79 < 80 ∧ 1 < otherParams.rom.length ∧ 0x5FF < otherParams.loadBase ∧
    otherParams.loadBase + otherParams.rom.length ≤ 0x602 := by decide

/-- Parameters with a ROM of `n` bytes at a load base. -/
def romOf (base n : Nat) : ResetParams := { otherParams with loadBase := base, rom := List.replicate n 0 }

/-- The largest ROM at each load base, and one byte more. -/
theorem test_witness_TooLargeRomIsRefused :
    (romOf 0x200 3585).font.length = 80 ∧ 1 ≤ (romOf 0x200 3585).ipt ∧
    ((romOf 0x200 3585).loadBase = 0x200 ∧ 3584 < (romOf 0x200 3585).rom.length) ∧
    ((romOf 0x600 2561).loadBase = 0x600 ∧ 2560 < (romOf 0x600 2561).rom.length) ∧
    ((romOf 0x200 3584).loadBase = 0x200 ∧ (romOf 0x200 3584).rom.length ≤ 3584) ∧
    ((romOf 0x600 2560).loadBase = 0x600 ∧ (romOf 0x600 2560).rom.length ≤ 2560) := by
  simp only [romOf, List.length_replicate]
  decide

end Sys2Proof.Tests
end

/-! SUPPORT. Reset and load: which parameters are legal, when a reset answers a state and which one, and the invariant
in that state. -/

namespace Sys2Proof

/-- The legal values of R7, as arithmetic. -/
theorem ResetParams.wellFormed_iff {p : ResetParams} :
    p.wellFormed = true ↔ (p.loadBase = 0x200 ∨ p.loadBase = 0x600) ∧ p.rom.length ≤ 4096 - p.loadBase ∧
      p.font.length = 80 ∧ 1 ≤ p.ipt := by
  simp [ResetParams.wellFormed, ResetParams.baseOk, ResetParams.romFits, ResetParams.fontOk, ResetParams.iptOk,
    and_assoc]

namespace Machine

/-- The state reset/load leaves for given parameters: the default reset with the load base, the memory and `IPT` put in
(R36, R241). -/
def State.loaded (p : ResetParams) : State :=
  { State.reset with pc := BitVec.ofNat 16 p.loadBase, mem := resetMemory p, ipt := p.ipt }

/-- A reset answers a state exactly for legal parameters, and then the loaded one (R7, R241, R242). -/
theorem State.resetWith_eq_next_iff {p : ResetParams} {t : State} :
    State.resetWith p = .next t ↔ p.wellFormed = true ∧ t = State.loaded p := by
  have hwf : p.wellFormed = (p.baseOk && p.fontOk && p.iptOk && p.romFits) := by
    unfold ResetParams.wellFormed
    ac_rfl
  rw [hwf]
  unfold State.resetWith
  cases p.baseOk && p.fontOk && p.iptOk with
  | false => simp
  | true =>
    cases p.romFits with
    | false => simp
    | true => simp [State.loaded, eq_comm]

/-- With legal parameters the font and the ROM lie within the address space, so the memory is in canonical form. -/
theorem wf_resetMemory {p : ResetParams} (hp : p.wellFormed = true) : (resetMemory p).wf = true := by
  obtain ⟨hbase, hrom, hfont, -⟩ := ResetParams.wellFormed_iff.1 hp
  have hwithFont : (Memory.writeBytes [] 0 p.font).wf = true := Memory.wf_writeBytes (by omega) Memory.wf_nil
  exact Memory.wf_writeBytes (by omega) hwithFont

/-- The reset state meets the invariant with any bounded `PC`, any canonical memory and any `IPT >= 1` put in: every
other field keeps its zero of reset. -/
theorem State.inv_reset_with {pc : Word} {mem : Memory} {ipt : Nat} (hpc : pc.toNat ≤ 0x10FE) (hmem : mem.wf = true)
    (hipt : 1 ≤ ipt) : ({ State.reset with pc := pc, mem := mem, ipt := ipt } : State).Inv where
  index := by simp [State.reset]
  faultRecord := by simp [State.reset]
  faultInfo _ := rfl
  waiting h := nomatch h
  pcBound := hpc
  returnAddresses := by simp [State.reset]
  memory := hmem
  slotsPerTick := hipt

/-- The state that a legal reset leaves meets the invariant. -/
theorem State.inv_loaded {p : ResetParams} (hp : p.wellFormed = true) : (State.loaded p).Inv := by
  obtain ⟨hbase, -, -, hipt⟩ := ResetParams.wellFormed_iff.1 hp
  have hpc : (BitVec.ofNat 16 p.loadBase).toNat ≤ 0x10FE := by
    rw [BitVec.toNat_ofNat]
    omega
  exact State.inv_reset_with hpc (wf_resetMemory hp) hipt

/-- Settles O44: a reset that is not refused had legal parameters, and its state meets the invariant. -/
theorem resetWithAnyParametersMeetsTheInvariant : Obligations.ResetWithAnyParametersMeetsTheInvariant := by
  intro p t h
  obtain ⟨hp, rfl⟩ := State.resetWith_eq_next_iff.1 h
  exact State.inv_loaded hp

end Machine
end Sys2Proof

/-! SUPPORT. One instruction as a check and an effect: the execute stage raises the check's fault or performs the whole
effect (`40_cycle.md` R95, `60_exceptions.md` R215). -/

namespace Sys2Proof.Machine

/-! ## The key load as an update of the state -/

/-- What `Fx0A` does: wait, or take the key, run on and advance (`46_keypad.md` R178). -/
def State.loadKey (s : State) (x : Reg) : State :=
  match s.keyEvent with
  | none => s.setRs .awaitingKey
  | some k => ((s.setReg x (keyByte k)).setRs .running).advance

namespace State

variable (s : State) (x : Reg)

@[simp] theorem loadKey_i : (s.loadKey x).i = s.i := by unfold loadKey; split <;> rfl
@[simp] theorem loadKey_stack : (s.loadKey x).stack = s.stack := by unfold loadKey; split <;> rfl
@[simp] theorem loadKey_sp : (s.loadKey x).sp = s.sp := by unfold loadKey; split <;> rfl
@[simp] theorem loadKey_dt : (s.loadKey x).dt = s.dt := by unfold loadKey; split <;> rfl
@[simp] theorem loadKey_st : (s.loadKey x).st = s.st := by unfold loadKey; split <;> rfl
@[simp] theorem loadKey_fcause : (s.loadKey x).fcause = s.fcause := by unfold loadKey; split <;> rfl
@[simp] theorem loadKey_finfo : (s.loadKey x).finfo = s.finfo := by unfold loadKey; split <;> rfl
@[simp] theorem loadKey_mem : (s.loadKey x).mem = s.mem := by unfold loadKey; split <;> rfl
@[simp] theorem loadKey_disp : (s.loadKey x).disp = s.disp := by unfold loadKey; split <;> rfl
@[simp] theorem loadKey_ipt : (s.loadKey x).ipt = s.ipt := by unfold loadKey; split <;> rfl
@[simp] theorem loadKey_keysDown : (s.loadKey x).keysDown = s.keysDown := by unfold loadKey; split <;> rfl
@[simp] theorem loadKey_keyEvent : (s.loadKey x).keyEvent = s.keyEvent := by unfold loadKey; split <;> rfl
@[simp] theorem loadKey_keyInputs : (s.loadKey x).keyInputs = s.keyInputs := by unfold loadKey; split <;> rfl
@[simp] theorem loadKey_ticks : (s.loadKey x).ticks = s.ticks := by unfold loadKey; split <;> rfl
@[simp] theorem loadKey_rndInputs : (s.loadKey x).rndInputs = s.rndInputs := by unfold loadKey; split <;> rfl
@[simp] theorem loadKey_draws : (s.loadKey x).draws = s.draws := by unfold loadKey; split <;> rfl

/-- The key load waits and changes nothing else, or runs on past itself (R178, R179). -/
theorem loadKey_cases :
    s.loadKey x = s.setRs .awaitingKey ∨
      (s.loadKey x).rs = .running ∧ (s.loadKey x).pc = s.pc + 2 := by
  unfold loadKey
  split
  · exact .inl rfl
  · exact .inr ⟨rfl, rfl⟩

/-- The key load writes no register but its destination. -/
theorem reg_loadKey_other {y : Reg} (h : y ≠ x) : (s.loadKey x).reg y = s.reg y := by
  unfold loadKey
  split
  · rfl
  · next k _ => exact reg_setReg_other s x y (keyByte k) h

end State

/-! ## The check and the effect of each instruction -/

/-- The check an instruction makes before its writes: the nine of `60_exceptions.md` R224 make one. -/
def faultCheck (i : Instr) (s : State) : Option Fault :=
  match i with
  | .ret => popFault s
  | .call _ => pushFault s
  | .drw _ _ n => windowFault s.base n.val
  | .skp x | .sknp x => keyFault (s.reg x)
  | .addIVx x => indexFault (s.i.toNat + (s.reg x).toNat)
  | .ldBVx _ => windowFault s.base 3
  | .ldMemVx x | .ldVxMem x => windowFault s.base (x.val + 1)
  | _ => none

/-- The state after all of an instruction's writes, where its check passes. -/
def effect (i : Instr) (s : State) : State :=
  match i with
  | .cls => (s.setDisp 0).advance
  | .ret => s.drop.setPc s.top
  | .jp nnn => s.setPc (zextAddr nnn)
  | .call nnn => (s.push (s.pc + 2)).setPc (zextAddr nnn)
  | .seImm x kk => s.skipIf (s.reg x == kk)
  | .sneImm x kk => s.skipIf (s.reg x != kk)
  | .seReg x y => s.skipIf (s.reg x == s.reg y)
  | .sneReg x y => s.skipIf (s.reg x != s.reg y)
  | .ldImm x kk => (s.setReg x kk).advance
  | .addImm x kk => (s.setReg x (addBytes (s.reg x) kk)).advance
  | .ldReg x y => (s.setReg x (s.reg y)).advance
  | .orReg x y => (s.setReg x (s.reg x ||| s.reg y)).advance
  | .andReg x y => (s.setReg x (s.reg x &&& s.reg y)).advance
  | .xorReg x y => (s.setReg x (s.reg x ^^^ s.reg y)).advance
  | .addReg x y => (s.setFlagThenReg (carryFlag (s.reg x) (s.reg y)) x (addBytes (s.reg x) (s.reg y))).advance
  | .subReg x y => (s.setFlagThenReg (greaterFlag (s.reg x) (s.reg y)) x (subBytes (s.reg x) (s.reg y))).advance
  | .shr x => (s.setFlagThenReg (lowBitFlag (s.reg x)) x (s.reg x >>> 1)).advance
  | .subnReg x y => (s.setFlagThenReg (greaterFlag (s.reg y) (s.reg x)) x (subBytes (s.reg y) (s.reg x))).advance
  | .shl x => (s.setFlagThenReg (highBitFlag (s.reg x)) x (s.reg x <<< 1)).advance
  | .ldI nnn => (s.setI (zextAddr nnn)).advance
  | .jpV0 nnn => s.setPc (BitVec.ofNat 16 (nnn.toNat + (s.reg 0).toNat))
  | .rnd x kk => (s.consumeRnd.setReg x (s.nextRnd &&& kk)).advance
  | .drw x y n => ((s.setDisp (s.drawn x y n).1).setReg VF (collisionFlag (s.drawn x y n).2)).advance
  | .skp x => s.skipIf (s.keyDown (s.reg x))
  | .sknp x => s.skipIf (!s.keyDown (s.reg x))
  | .ldVxDt x => (s.setReg x s.dt).advance
  | .ldVxK x => s.loadKey x
  | .ldDtVx x => (s.setDt (s.reg x)).advance
  | .ldStVx x => (s.setSt (s.reg x)).advance
  | .addIVx x => (s.setI (BitVec.ofNat 16 (s.i.toNat + (s.reg x).toNat))).advance
  | .ldFVx x => (s.setI (BitVec.ofNat 16 (5 * (s.reg x).toNat))).advance
  | .ldBVx x => (s.setMem (s.mem.writeBytes s.base (bcdDigits (s.reg x)))).advance
  | .ldMemVx x => (s.setMem (s.mem.writeBytes s.base (regsUpTo s.v x))).advance
  | .ldVxMem x => (s.setRegs (loadRegs s.mem s.base x s.v)).advance

/-- The execute stage always answers a next state: the fault of the check, or the effect (R95, R215). -/
theorem exec_eq (i : Instr) (s : State) : exec i s = .next (s.unlessFault (faultCheck i s) (effect i s)) := by
  cases i <;> rfl

/-- The two ways an instruction answers a next state. -/
theorem exec_next_cases {i : Instr} {s t : State} (h : exec i s = .next t) :
    (∃ f, faultCheck i s = some f ∧ t = s.raise f) ∨ (faultCheck i s = none ∧ t = effect i s) := by
  rw [exec_eq, Host.Outcome.next.injEq] at h
  exact h ▸ unlessFault_cases s (effect i s) (faultCheck i s)

/-! ## What a passed check says -/

theorem windowFault_eq_none {base len : Nat} : windowFault base len = none ↔ len = 0 ∨ base + len - 1 ≤ 0xFFF := by
  simp only [windowFault, ite_eq_right_iff, reduceCtorEq, imp_false]
  omega

theorem indexFault_eq_none {sum : Nat} : indexFault sum = none ↔ sum ≤ 0xFFF := by simp [indexFault]

theorem pushFault_eq_none {s : State} : pushFault s = none ↔ s.sp.val < 16 := by
  simp only [pushFault, ite_eq_right_iff, reduceCtorEq, imp_false]
  omega

theorem popFault_eq_none {s : State} : popFault s = none ↔ s.sp.val ≠ 0 := by simp [popFault]

/-! ## The frame of an effect, field by field (`10_state.md` R24 to R30, R32) -/

section
variable (i : Instr) (s : State)

@[simp] theorem effect_fcause : (effect i s).fcause = s.fcause := by cases i <;> simp [effect]
@[simp] theorem effect_finfo : (effect i s).finfo = s.finfo := by cases i <;> simp [effect]
@[simp] theorem effect_ipt : (effect i s).ipt = s.ipt := by cases i <;> simp [effect]
@[simp] theorem effect_keysDown : (effect i s).keysDown = s.keysDown := by cases i <;> simp [effect]
@[simp] theorem effect_keyEvent : (effect i s).keyEvent = s.keyEvent := by cases i <;> simp [effect]
@[simp] theorem effect_keyInputs : (effect i s).keyInputs = s.keyInputs := by cases i <;> simp [effect]
@[simp] theorem effect_ticks : (effect i s).ticks = s.ticks := by cases i <;> simp [effect]
end

section
variable {i : Instr} (s : State)

theorem effect_i (hLd : ∀ nnn, i ≠ .ldI nnn) (hAdd : ∀ x, i ≠ .addIVx x) (hFont : ∀ x, i ≠ .ldFVx x) :
    (effect i s).i = s.i := by
  cases i with
  | ldI nnn => exact absurd rfl (hLd nnn)
  | addIVx x => exact absurd rfl (hAdd x)
  | ldFVx x => exact absurd rfl (hFont x)
  | _ => simp [effect]

theorem effect_stack (hCall : ∀ nnn, i ≠ .call nnn) : (effect i s).stack = s.stack := by
  cases i with
  | call nnn => exact absurd rfl (hCall nnn)
  | _ => simp [effect]

theorem effect_sp (hCall : ∀ nnn, i ≠ .call nnn) (hRet : i ≠ .ret) : (effect i s).sp = s.sp := by
  cases i with
  | call nnn => exact absurd rfl (hCall nnn)
  | ret => exact absurd rfl hRet
  | _ => simp [effect]

theorem effect_dt (h : ∀ x, i ≠ .ldDtVx x) : (effect i s).dt = s.dt := by
  cases i with
  | ldDtVx x => exact absurd rfl (h x)
  | _ => simp [effect]

theorem effect_st (h : ∀ x, i ≠ .ldStVx x) : (effect i s).st = s.st := by
  cases i with
  | ldStVx x => exact absurd rfl (h x)
  | _ => simp [effect]

theorem effect_rs (h : ∀ x, i ≠ .ldVxK x) : (effect i s).rs = s.rs := by
  cases i with
  | ldVxK x => exact absurd rfl (h x)
  | _ => simp [effect]

theorem effect_disp (hCls : i ≠ .cls) (hDrw : ∀ x y n, i ≠ .drw x y n) : (effect i s).disp = s.disp := by
  cases i with
  | cls => exact absurd rfl hCls
  | drw x y n => exact absurd rfl (hDrw x y n)
  | _ => simp [effect]

theorem effect_mem (hBcd : ∀ x, i ≠ .ldBVx x) (hStore : ∀ x, i ≠ .ldMemVx x) : (effect i s).mem = s.mem := by
  cases i with
  | ldBVx x => exact absurd rfl (hBcd x)
  | ldMemVx x => exact absurd rfl (hStore x)
  | _ => simp [effect]

theorem effect_draws (h : ∀ x kk, i ≠ .rnd x kk) :
    (effect i s).rndInputs = s.rndInputs ∧ (effect i s).draws = s.draws := by
  cases i with
  | rnd x kk => exact absurd rfl (h x kk)
  | _ => simp [effect]

end

/-- Settles O36: a fault writes the run state and its record only, and an effect has the frame above. -/
theorem eachRegisterHasItsWriters : Obligations.EachRegisterHasItsWriters := by
  intro i s t h
  obtain ⟨f, -, rfl⟩ | ⟨-, rfl⟩ := exec_next_cases h
  · simp
  · exact ⟨effect_i s, fun hCall => ⟨effect_stack s hCall, effect_sp s hCall⟩, effect_dt s, effect_st s, effect_disp s,
      effect_mem s, effect_draws s, effect_ipt i s, effect_keysDown i s, effect_keyEvent i s, effect_keyInputs i s,
      effect_ticks i s⟩

end Sys2Proof.Machine

/-! SUPPORT. What each effect leaves in `VF`, and which inputs of the state an instruction reads. -/

namespace Sys2Proof.Machine

/-! ## The flag `VF` (`10_state.md` R22) -/

theorem flagByte_zero_or_one (b : Bool) : flagByte b = 0 ∨ flagByte b = 1 := by
  cases b <;> simp [flagByte]

/-- A byte cut down to its lowest bit is a flag. -/
theorem and_one_zero_or_one (b : Byte) : b &&& 1 = 0 ∨ b &&& 1 = 1 := by
  rw [show (1 : Byte) = 1#8 from rfl, BitVec.and_one_eq_setWidth_ofBool_getLsbD]
  cases b.getLsbD 0 <;> simp

/-- Where the result goes to another register, `VF` holds the flag (decision D12). -/
theorem State.reg_VF_setFlagThenReg (s : State) {x : Reg} {flag : Byte} (result : Byte) (hflag : flag = 0 ∨ flag = 1)
    (hx : x ≠ 15) :
    (s.setFlagThenReg flag x result).reg VF = 0 ∨ (s.setFlagThenReg flag x result).reg VF = 1 := by
  rwa [setFlagThenReg_eq, reg_setReg_other _ _ _ _ hx.symm, reg_setReg_same]

/-- A block load that stops below `VF` leaves it (R157). -/
theorem getElem_VF_loadRegs (m : Memory) (base : Nat) {x : Reg} (v : Vector Byte 16) (hx : x ≠ 15) :
    (loadRegs m base x v)[VF] = v[VF] := by
  have hlt : ¬ VF ≤ x := fun h => hx (Fin.last_le_iff.1 h)
  rw [getElem_loadRegs, if_neg hlt]

/-- Settles O35: a faulting instruction writes no register, and a completing one writes `VF` as its flag or its
destination only. -/
theorem onlyFlagWritersTouchVF : Obligations.OnlyFlagWritersTouchVF := by
  intro i s t h
  obtain ⟨f, hf, rfl⟩ | ⟨-, rfl⟩ := exec_next_cases h
  · cases i with
    | addReg | subReg | shr | subnReg | shl => nomatch hf
    | drw => exact .inr (.inr ⟨rfl, rfl⟩)
    | ldImm | addImm | ldReg | orReg | andReg | xorReg | rnd | ldVxDt | ldVxK | ldVxMem => exact fun _ => rfl
    | _ => rfl
  · cases i with
    | addReg | subReg | subnReg => exact s.reg_VF_setFlagThenReg _ (flagByte_zero_or_one _)
    | shr x => exact s.reg_VF_setFlagThenReg _ (and_one_zero_or_one (s.reg x))
    | shl x => exact s.reg_VF_setFlagThenReg _ (and_one_zero_or_one (s.reg x >>> 7))
    | drw x y n =>
      have hVF : (effect (.drw x y n) s).reg VF = flagByte (s.drawn x y n).2 := State.reg_setReg_same _ VF _
      have hbit := flagByte_zero_or_one (s.drawn x y n).2
      rw [← hVF] at hbit
      exact hbit.imp_right .inl
    | ldImm x | addImm x | ldReg x | orReg x | andReg x | xorReg x | ldVxDt x =>
      exact fun hx => s.reg_setReg_other x VF _ hx.symm
    | rnd x => exact fun hx => s.consumeRnd.reg_setReg_other x VF _ hx.symm
    | ldVxK x => exact fun hx => s.reg_loadKey_other x hx.symm
    | ldVxMem x => exact fun hx => getElem_VF_loadRegs s.mem s.base s.v hx
    | call nnn => simp [effect]
    | _ => rfl

/-! ## What an instruction does not read -/

/-- An update that commutes with the instruction's check, with taking a fault and with its effect commutes with the
instruction. -/
theorem exec_comm {i : Instr} {s t : State} (upd : State → State)
    (hcheck : faultCheck i (upd s) = faultCheck i s) (hraise : ∀ f, (upd s).raise f = upd (s.raise f))
    (heffect : effect i (upd s) = upd (effect i s)) (h : exec i s = .next t) : exec i (upd s) = .next (upd t) := by
  rw [exec_eq, hcheck, heffect]
  obtain ⟨f, hc, rfl⟩ | ⟨hc, rfl⟩ := exec_next_cases h
  · exact (faults hc).trans (congrArg _ (hraise f))
  · exact completes hc

/-- The state with another sampled key event (R42). -/
def State.withKeyEvent (e : Option Key) (s : State) : State := { s with keyEvent := e }

/-- The state with other sampled key levels (R41). -/
def State.withKeysDown (d : BitVec 16) (s : State) : State := { s with keysDown := d }

theorem faultCheck_withKeyEvent (i : Instr) (e : Option Key) (s : State) :
    faultCheck i (s.withKeyEvent e) = faultCheck i s := by cases i <;> rfl

theorem faultCheck_withKeysDown (i : Instr) (d : BitVec 16) (s : State) :
    faultCheck i (s.withKeysDown d) = faultCheck i s := by cases i <;> rfl

/-- No effect but that of `Fx0A` reads the key event. -/
theorem effect_withKeyEvent {i : Instr} (e : Option Key) (s : State) (h : ∀ x, i ≠ .ldVxK x) :
    effect i (s.withKeyEvent e) = (effect i s).withKeyEvent e := by
  cases i with
  | ldVxK x => exact absurd rfl (h x)
  | call nnn => by_cases hsp : s.sp.val < 16 <;> simp [effect, State.push, State.withKeyEvent, State.setPc, hsp]
  | _ => rfl

/-- No effect but those of `Ex9E` and `ExA1` reads the key levels. -/
theorem effect_withKeysDown {i : Instr} (d : BitVec 16) (s : State) (hSkp : ∀ x, i ≠ .skp x) (hSknp : ∀ x, i ≠ .sknp x) :
    effect i (s.withKeysDown d) = (effect i s).withKeysDown d := by
  cases i with
  | skp x => exact absurd rfl (hSkp x)
  | sknp x => exact absurd rfl (hSknp x)
  | call nnn => by_cases hsp : s.sp.val < 16 <;> simp [effect, State.push, State.withKeysDown, State.setPc, hsp]
  | ldVxK x => cases hk : s.keyEvent <;> simp [effect, State.loadKey, State.withKeysDown, hk] <;> rfl
  | _ => rfl

/-- Settles O40: another sample commutes with the check and the effect of every instruction that does not read it. -/
theorem keyInputsReachOnlyTheKeyInstructions : Obligations.KeyInputsReachOnlyTheKeyInstructions := by
  intro i s t e d h
  constructor
  · exact fun hK => exec_comm (State.withKeyEvent e) (faultCheck_withKeyEvent i e s) (fun _ => rfl)
      (effect_withKeyEvent e s hK) h
  · exact fun hSkp hSknp => exec_comm (State.withKeysDown d) (faultCheck_withKeysDown i d s) (fun _ => rfl)
      (effect_withKeysDown d s hSkp hSknp) h

end Sys2Proof.Machine

/-! SUPPORT. The dead entries of the stack: which parts of a step respect them (`10_state.md` R25, decision D19). -/

namespace Sys2Proof.Machine

/-- The state with another array of stack entries. -/
def State.withStack (k : Vector Word 16) (s : State) : State := { s with stack := k }

/-- Two states that differ at most in dead entries: the same state with another array that agrees below `SP`. -/
theorem sameButDeadEntries_iff {s s' : State} :
    sameButDeadEntries s s' ↔ ∃ k, s' = s.withStack k ∧ ∀ j : Fin 16, j.val < s.sp.val → k[j] = s.stack[j] := by
  constructor
  · rintro ⟨hs', hlive⟩
    exact ⟨s'.stack, hs', hlive⟩
  · rintro ⟨k, rfl, hlive⟩
    exact ⟨rfl, hlive⟩

/-- A part of a step that cannot tell dead entries: from states that differ at most in them it answers next states that
differ at most in them. -/
def RespectsDeadEntries (f : State → Host.Outcome State Fault Refusal) : Prop :=
  ∀ s s' t : State, sameButDeadEntries s s' → f s = .next t → ∃ t', f s' = .next t' ∧ sameButDeadEntries t t'

/-- A part that always answers a next state respects dead entries if its update of the state does. -/
theorem respectsDeadEntries_next {upd : State → State}
    (h : ∀ s s', sameButDeadEntries s s' → sameButDeadEntries (upd s) (upd s')) :
    RespectsDeadEntries fun s => .next (upd s) := by
  intro s s' t hss' ht
  rw [Host.Outcome.next.injEq] at ht
  exact ⟨upd s', rfl, ht ▸ h s s' hss'⟩

theorem respectsDeadEntries_andThen {f k : State → Host.Outcome State Fault Refusal} (hf : RespectsDeadEntries f)
    (hk : RespectsDeadEntries k) : RespectsDeadEntries fun s => andThen (f s) k := by
  intro s s' t hss' ht
  obtain ⟨u, hu, hkt⟩ := andThen_eq_next ht
  obtain ⟨u', hu', huu'⟩ := hf s s' u hss' hu
  obtain ⟨t', hkt', htt'⟩ := hk u u' t huu' hkt
  exact ⟨t', (congrArg (andThen · k) hu').trans hkt', htt'⟩

/-! ## Execute -/

theorem faultCheck_withStack (i : Instr) (k : Vector Word 16) (s : State) :
    faultCheck i (s.withStack k) = faultCheck i s := by cases i <;> rfl

/-- No effect but those of `CALL` and `RET` reads or writes a stack entry. -/
theorem effect_withStack {i : Instr} (k : Vector Word 16) (s : State) (hCall : ∀ nnn, i ≠ .call nnn) (hRet : i ≠ .ret) :
    effect i (s.withStack k) = (effect i s).withStack k := by
  cases i with
  | call nnn => exact absurd rfl (hCall nnn)
  | ret => exact absurd rfl hRet
  | ldVxK x => cases hk : s.keyEvent <;> simp [effect, State.loadKey, State.withStack, hk] <;> rfl
  | _ => rfl

section
variable {s : State} {k : Vector Word 16} (hlive : ∀ j : Fin 16, j.val < s.sp.val → k[j] = s.stack[j])
include hlive

/-- A pop reads a live entry, and leaves one live entry fewer. -/
theorem sameButDeadEntries_effect_ret (hsp : s.sp.val ≠ 0) :
    sameButDeadEntries (effect .ret s) (effect .ret (s.withStack k)) := by
  have htop : (s.withStack k).top = s.top := hlive ⟨s.sp.val - 1, by omega⟩ (by simp only; omega)
  refine sameButDeadEntries_iff.2 ⟨k, ?_, fun j hj => hlive j (Nat.lt_of_lt_of_le hj (Nat.sub_le _ 1))⟩
  simp only [effect, htop]
  rfl

/-- A push writes the entry that it brings to life, the same one to both. -/
theorem sameButDeadEntries_effect_call (nnn : Addr12) (hsp : s.sp.val < 16) :
    sameButDeadEntries (effect (.call nnn) s) (effect (.call nnn) (s.withStack k)) := by
  refine sameButDeadEntries_iff.2 ⟨((s.withStack k).push (s.pc + 2)).stack, ?_, fun j hj => ?_⟩
  · simp [effect, State.push, State.withStack, State.setPc, hsp]
  · have hpushed := State.push_stack (s.withStack k) (s.pc + 2) hsp j
    have hpush := s.push_stack (s.pc + 2) hsp j
    have hcount := s.push_sp_val (s.pc + 2) hsp
    simp only [effect, State.setPc_sp, State.setPc_stack] at hj ⊢
    rw [hpushed, hpush]
    split
    · next heq => rw [if_pos (show j.val = s.sp.val from heq)]
    · next hne =>
      have hne' : j.val ≠ s.sp.val := hne
      rw [if_neg hne']
      exact hlive j (by omega)

/-- Where its check passes, an effect reads live entries only. -/
theorem sameButDeadEntries_effect {i : Instr} (hcheck : faultCheck i s = none) :
    sameButDeadEntries (effect i s) (effect i (s.withStack k)) := by
  by_cases hCall : ∃ nnn, i = .call nnn
  · obtain ⟨nnn, rfl⟩ := hCall
    exact sameButDeadEntries_effect_call hlive nnn (pushFault_eq_none.1 hcheck)
  by_cases hRet : i = .ret
  · subst hRet
    exact sameButDeadEntries_effect_ret hlive (popFault_eq_none.1 hcheck)
  · rw [not_exists] at hCall
    refine sameButDeadEntries_iff.2 ⟨k, effect_withStack k s hCall hRet, ?_⟩
    rw [effect_stack s hCall, effect_sp s hCall hRet]
    exact hlive

end

theorem sameButDeadEntries_raise {s s' : State} (f : Fault) (h : sameButDeadEntries s s') :
    sameButDeadEntries (s.raise f) (s'.raise f) := by
  obtain ⟨k, rfl, hlive⟩ := sameButDeadEntries_iff.1 h
  exact sameButDeadEntries_iff.2 ⟨k, rfl, hlive⟩

/-- The execute stage: the check does not see the stack's entries, and the effect only live ones. -/
theorem exec_respectsDeadEntries (i : Instr) : RespectsDeadEntries (exec i) := by
  intro s s' t hss' ht
  obtain ⟨k, rfl, hlive⟩ := sameButDeadEntries_iff.1 hss'
  have hcheck' := faultCheck_withStack i k s
  obtain ⟨f, hcheck, rfl⟩ | ⟨hcheck, rfl⟩ := exec_next_cases ht
  · exact ⟨_, (exec_eq i _).trans (faults (hcheck'.trans hcheck)), sameButDeadEntries_raise f hss'⟩
  · exact ⟨_, (exec_eq i _).trans (completes (hcheck'.trans hcheck)), sameButDeadEntries_effect hlive hcheck⟩

/-! ## The slot, the loop and the tick -/

/-- Fetch and decode do not see the stack. -/
theorem instrStep_respectsDeadEntries : RespectsDeadEntries instrStep := by
  intro s s' t hss' ht
  obtain ⟨k, rfl, -⟩ := sameButDeadEntries_iff.1 hss'
  have hfetch' : fetchFault (s.withStack k) = fetchFault s := rfl
  have hword : (s.withStack k).fetched = s.fetched := rfl
  obtain ⟨f, hfetch, heq⟩ | ⟨hfetch, hdec, heq⟩ | ⟨i, hfetch, hdec, heq⟩ := instrStep_cases ht
  · rw [Host.Outcome.next.injEq] at heq
    refine ⟨_, ?_, heq ▸ sameButDeadEntries_raise f hss'⟩
    simp [instrStep, hfetch', hfetch]
  · rw [Host.Outcome.next.injEq] at heq
    refine ⟨_, ?_, heq ▸ sameButDeadEntries_raise (.illegalInstruction s.fetched) hss'⟩
    simp [instrStep, hfetch', hfetch, hword, hdec]
  · obtain ⟨t', ht', htt'⟩ := exec_respectsDeadEntries i s _ t hss' heq.symm
    refine ⟨t', ?_, htt'⟩
    simp [instrStep, hfetch', hfetch, hword, hdec, ht']

theorem sameButDeadEntries_rs {s s' : State} (h : sameButDeadEntries s s') : s'.rs = s.rs := by
  obtain ⟨k, rfl, -⟩ := sameButDeadEntries_iff.1 h
  rfl

theorem moreSlots_respectsDeadEntries (n : Nat) : RespectsDeadEntries (moreSlots n) := by
  induction n with
  | zero => exact respectsDeadEntries_next fun _ _ h => h
  | succ n ih =>
    intro s s' t hss' ht
    unfold moreSlots at ht ⊢
    rw [sameButDeadEntries_rs hss']
    split at ht
    · next hr =>
      rw [if_pos hr]
      exact respectsDeadEntries_andThen instrStep_respectsDeadEntries ih s s' t hss' ht
    · next hr =>
      rw [if_neg hr]
      exact respectsDeadEntries_next (fun _ _ h => h) s s' t hss' ht

theorem slots_respectsDeadEntries : ∀ n : Nat, RespectsDeadEntries (slots n)
  | 0 => respectsDeadEntries_next fun _ _ h => h
  | n + 1 => respectsDeadEntries_andThen instrStep_respectsDeadEntries (moreSlots_respectsDeadEntries n)

theorem sameButDeadEntries_sampleKeys {s s' : State} (h : sameButDeadEntries s s') :
    sameButDeadEntries s.sampleKeys s'.sampleKeys := by
  obtain ⟨k, rfl, hlive⟩ := sameButDeadEntries_iff.1 h
  exact sameButDeadEntries_iff.2 ⟨k, rfl, hlive⟩

theorem sameButDeadEntries_endTick {s s' : State} (h : sameButDeadEntries s s') :
    sameButDeadEntries (endTick s) (endTick s') := by
  obtain ⟨k, rfl, hlive⟩ := sameButDeadEntries_iff.1 h
  unfold endTick
  by_cases hr : s.rs = .running
  · rw [if_pos hr, if_pos (show (s.withStack k).rs = .running from hr)]
    exact sameButDeadEntries_iff.2 ⟨k, rfl, hlive⟩
  · rw [if_neg hr, if_neg (show (s.withStack k).rs ≠ .running from hr)]
    exact h

/-- Settles O41: sampling, every slot and the end of the tick respect the dead entries, and so does their composition. -/
theorem deadStackEntriesCannotBeSeen : Obligations.DeadStackEntriesCannotBeSeen := by
  intro s s' t hss' ht
  have hrs := sameButDeadEntries_rs hss'
  have hipt : s'.ipt = s.ipt := by
    obtain ⟨k, rfl, -⟩ := sameButDeadEntries_iff.1 hss'
    rfl
  obtain ⟨hr, rfl⟩ | ⟨hr, u, hu, rfl⟩ := tick_cases ht
  · refine ⟨s', ?_, hss'⟩
    simp [step, tick, hrs, hr]
  · obtain ⟨u', hu', huu'⟩ := slots_respectsDeadEntries s.ipt _ _ u (sameButDeadEntries_sampleKeys hss') hu
    refine ⟨endTick u', ?_, sameButDeadEntries_endTick huu'⟩
    simp [step, tick, hrs, hr, hipt, hu']

end Sys2Proof.Machine

/-! SUPPORT. The invariant of `10_state.md` R35 over one instruction, one slot and one tick, and the state after reset. -/

namespace Sys2Proof.Machine

/-! ## What an effect does to each field the invariant speaks of -/

section
variable {i : Instr} {s : State}

/-- `I` stays at most `0xFFF`: `LD I` has 12 bits, `ADD I` checks its sum, `LD F` gives at most 1275 (R24). -/
theorem effect_i_le (hcheck : faultCheck i s = none) (hi : s.i.toNat ≤ 0xFFF) : (effect i s).i.toNat ≤ 0xFFF := by
  cases i with
  | ldI nnn =>
    have := nnn.isLt
    simp only [effect, State.advance_eq, State.setPc_i, State.setI_i, toNat_zextAddr]
    omega
  | addIVx x =>
    have hsum := indexFault_eq_none.1 hcheck
    simp only [effect, State.advance_eq, State.setPc_i, State.setI_i, BitVec.toNat_ofNat]
    omega
  | ldFVx x =>
    have := (s.reg x).isLt
    simp only [effect, State.advance_eq, State.setPc_i, State.setI_i, BitVec.toNat_ofNat]
    exact (Nat.mod_le _ _).trans (by omega)
  | _ => rwa [effect_i s (by simp) (by simp) (by simp)]

/-- `PC` stays at most `0x10FE`: it moves past a fetched instruction, or to a jump's target, of which that of `JP V0` is the
largest, or to a return address (R23). -/
theorem effect_pc_le (hpc : s.pc.toNat ≤ 0xFFE) (hstack : ∀ j : Fin 16, s.stack[j].toNat ≤ 0x1000) :
    (effect i s).pc.toNat ≤ 0x10FE := by
  have hnext : (s.pc + 2).toNat ≤ 0x10FE := by bv_omega
  have hskip : (s.pc + 4).toNat ≤ 0x10FE := by bv_omega
  cases i with
  | jp nnn | call nnn =>
    have := nnn.isLt
    simp only [effect, State.setPc_pc, toNat_zextAddr]
    omega
  | jpV0 nnn =>
    have := nnn.isLt
    have := (s.reg 0).isLt
    simp only [effect, State.setPc_pc, BitVec.toNat_ofNat]
    omega
  | ret => exact (hstack ⟨s.sp.val - 1, by omega⟩).trans (by omega)
  | seImm | sneImm | seReg | sneReg | skp | sknp =>
    simp only [effect, State.skipIf_eq, State.setPc_pc]
    split
    · exact hskip
    · exact hnext
  | ldVxK x =>
    obtain hwait | ⟨-, hrun⟩ := s.loadKey_cases x
    · simp only [effect, hwait, State.setRs_pc]
      omega
    · simpa only [effect, hrun] using hnext
  | _ => exact hnext

/-- Every return address is even and at most `0x1000`: `CALL` pushes the address after a fetched instruction (R25, R204). -/
theorem effect_returnAddresses (hcheck : faultCheck i s = none) (heven : s.pc.toNat % 2 = 0) (hpc : s.pc.toNat ≤ 0xFFE)
    (hstack : ∀ j : Fin 16, s.stack[j].toNat ≤ 0x1000 ∧ s.stack[j].toNat % 2 = 0) (j : Fin 16) :
    (effect i s).stack[j].toNat ≤ 0x1000 ∧ (effect i s).stack[j].toNat % 2 = 0 := by
  cases i with
  | call nnn =>
    have hpush := s.push_stack (s.pc + 2) (pushFault_eq_none.1 hcheck) j
    simp only [effect, State.setPc_stack, hpush]
    split
    · have hnext : (s.pc + 2).toNat = s.pc.toNat + 2 := by bv_omega
      omega
    · exact hstack j
  | _ =>
    rw [effect_stack s (by simp)]
    exact hstack j

/-- The memory stays canonical: the stores' window check keeps them within the address space (R54, R58). -/
theorem effect_mem_wf (hcheck : faultCheck i s = none) (hmem : s.mem.wf = true) : (effect i s).mem.wf = true := by
  cases i with
  | ldBVx x =>
    have hwindow := windowFault_eq_none.1 hcheck
    exact Memory.wf_writeBytes (by rw [length_bcdDigits]; omega) hmem
  | ldMemVx x =>
    have hwindow := windowFault_eq_none.1 hcheck
    exact Memory.wf_writeBytes (by rw [length_regsUpTo]; omega) hmem
  | _ => rwa [effect_mem s (by simp) (by simp)]

/-- No effect halts the core. -/
theorem effect_rs_ne_halted (hrun : s.rs ≠ .halted) : (effect i s).rs ≠ .halted := by
  cases i with
  | ldVxK x =>
    obtain hwait | ⟨hrs, -⟩ := s.loadKey_cases x
    · simp [effect, hwait]
    · simp [effect, hrs]
  | _ => rwa [effect_rs s (by simp)]

/-- Only the key load leaves a core waiting that has not waited on another instruction, and it then stays at its own
address (R35, R178). -/
theorem effect_waiting (hfetch : fetchFault s = none) (hdec : decode s.fetched = .ok i)
    (hwaiting : s.rs = .awaitingKey → ∃ x, decode s.fetched = .ok (.ldVxK x)) (hrs : (effect i s).rs = .awaitingKey) :
    fetchFault (effect i s) = none ∧ ∃ x, decode (effect i s).fetched = .ok (.ldVxK x) := by
  by_cases hK : ∃ x, i = .ldVxK x
  · obtain ⟨x, rfl⟩ := hK
    obtain hwait | ⟨hrun, -⟩ := s.loadKey_cases x
    · simp only [effect, hwait]
      exact ⟨hfetch, x, hdec⟩
    · exact absurd (hrun.symm.trans hrs) (by simp)
  · rw [not_exists] at hK
    rw [effect_rs s hK] at hrs
    obtain ⟨x, hx⟩ := hwaiting hrs
    exact absurd (Except.ok.inj (hdec.symm.trans hx)) (hK x)

end

/-! ## The invariant over each part of a step -/

/-- A fault meets the invariant: it writes the run state and its record together (R203). -/
theorem State.Inv.raise {s : State} (hs : s.Inv) (f : Fault) : (s.raise f).Inv where
  index := hs.index
  faultRecord := iff_of_true f.code_ne_zero rfl
  faultInfo h := absurd rfl h
  waiting h := nomatch h
  pcBound := hs.pcBound
  returnAddresses := hs.returnAddresses
  memory := hs.memory
  slotsPerTick := hs.slotsPerTick

theorem State.Inv.effect {s : State} {i : Instr} (hs : s.Inv) (hrun : s.rs ≠ .halted) (hfetch : fetchFault s = none)
    (hdec : decode s.fetched = .ok i) (hcheck : faultCheck i s = none) : (effect i s).Inv := by
  obtain ⟨hodd, hpc⟩ := fetchFault_eq_none.1 hfetch
  have heven : s.pc.toNat % 2 = 0 := by
    rw [BitVec.getLsbD, Nat.testBit_zero, decide_eq_false_iff_not] at hodd
    omega
  have hrun' : (Machine.effect i s).rs ≠ .halted := effect_rs_ne_halted hrun
  have hfcause : s.fcause = 0 := not_not.1 (mt hs.faultRecord.1 hrun)
  exact {
    index := effect_i_le hcheck hs.index
    faultRecord := by simp [hfcause, hrun']
    faultInfo := fun _ => (effect_finfo i s).trans (hs.faultInfo hrun)
    waiting := effect_waiting hfetch hdec fun h => (hs.waiting h).2
    pcBound := effect_pc_le hpc fun j => (hs.returnAddresses j).1
    returnAddresses := effect_returnAddresses hcheck heven hpc hs.returnAddresses
    memory := effect_mem_wf hcheck hs.memory
    slotsPerTick := (effect_ipt i s).symm ▸ hs.slotsPerTick }

/-- A slot of a core that has not halted keeps the invariant. -/
theorem instrStep_inv {s t : State} (hs : s.Inv) (hrun : s.rs ≠ .halted) (h : instrStep s = .next t) : t.Inv := by
  obtain ⟨f, -, ht⟩ | ⟨-, -, ht⟩ | ⟨i, hfetch, hdec, ht⟩ := instrStep_cases h
  · exact Host.Outcome.next.inj ht ▸ hs.raise f
  · exact Host.Outcome.next.inj ht ▸ hs.raise _
  · obtain ⟨f, -, rfl⟩ | ⟨hcheck, rfl⟩ := exec_next_cases ht.symm
    · exact hs.raise f
    · exact hs.effect hrun hfetch hdec hcheck

/-- The invariant does not speak of the key samples. -/
theorem State.Inv.sampleKeys {s : State} (hs : s.Inv) : s.sampleKeys.Inv :=
  { hs with }

/-- The invariant does not speak of the timers. -/
theorem State.Inv.timerStep {s : State} (hs : s.Inv) : s.timerStep.Inv :=
  { hs with }

theorem endTick_inv {s : State} (hs : s.Inv) : (endTick s).Inv := by
  unfold endTick
  split
  · exact hs.timerStep
  · exact hs

/-- Settles O42: sampling, every slot and the end of a tick keep the invariant. -/
theorem stepKeepsTheInvariant : Obligations.StepKeepsTheInvariant := by
  intro s t hs h
  obtain ⟨-, rfl⟩ | ⟨hrun, u, hu, rfl⟩ := tick_cases h
  · exact hs
  · exact endTick_inv (slots_induct (fun _ _ hs hrun => instrStep_inv hs hrun) hs.sampleKeys hrun hu)

/-! ## The state after reset -/

/-- Settles O43: the case of `State.inv_reset_with` in which reset's own `PC`, memory and `IPT` are put in. -/
theorem resetMeetsTheInvariant : Obligations.ResetMeetsTheInvariant :=
  State.inv_reset_with (pc := State.reset.pc) (by decide) Memory.wf_nil le_rfl

/-- Writing what the unlisted addresses read as leaves the empty memory empty. -/
theorem Memory.writeBytes_nil_eq_nil : ∀ {ws : List Byte} {a : Nat},
    (∀ k (hk : k < ws.length), ws[k] = Memory.unlisted (a + k)) → Memory.writeBytes [] a ws = []
  | [], _, _ => rfl
  | w :: ws, a, h => by
    have hfirst : Memory.write [] a w = [] := if_pos (h 0 (by simp))
    rw [Memory.writeBytes, hfirst]
    refine writeBytes_nil_eq_nil fun k hk => ?_
    rw [Nat.add_right_comm]
    exact h (k + 1) (by simpa using hk)

/-- The default font over zeros is the memory that lists nothing (R241; log entry 14). -/
theorem resetMemory_defaultParams : resetMemory defaultParams = [] := by
  have hfont : Memory.writeBytes [] 0 defaultFont = [] := Memory.writeBytes_nil_eq_nil fun k hk => by
    rw [Nat.zero_add, Memory.unlisted, List.getD_eq_getElem]
  exact congrArg (Memory.writeBytes · 0x200 []) hfont

/-- Reset with the default parameters is the state after reset. -/
theorem State.resetWith_defaultParams : State.resetWith defaultParams = .next State.reset :=
  State.resetWith_eq_next_iff.2 ⟨by decide, by rw [State.loaded, resetMemory_defaultParams]; rfl⟩

/-- Above the font an unlisted address reads as zero (R36). -/
theorem Memory.unlisted_above_font {a : Nat} (h : 80 ≤ a) : Memory.unlisted a = 0 :=
  List.getD_eq_default defaultFont 0 h

/-- The memory that lists nothing holds the default font at `0x000`. -/
theorem Memory.readBytes_nil_font : Memory.readBytes [] 0 80 = defaultFont :=
  List.ext_getElem (Memory.length_readBytes [] 0 80) fun k _ hk => by
    rw [getElem_readBytes, Nat.zero_add, read_nil, unlisted, List.getD_eq_getElem]

/-- Settles O45: the reset procedure's result, the zeros of the state's literal, and the memory that lists nothing. -/
theorem resetLeavesTheSpecsValues : Obligations.ResetLeavesTheSpecsValues :=
  ⟨State.resetWith_defaultParams, rfl, rfl, rfl, rfl, rfl, rfl, rfl, rfl, rfl, rfl, fun _ => Vector.getElem_replicate _,
    fun _ => Vector.getElem_replicate _, fun _ h => Memory.unlisted_above_font h, Memory.readBytes_nil_font⟩

end Sys2Proof.Machine

/-! SUPPORT. The two bytes of a fetched word, and a fetch after a block store (`20_memory.md` R52, R63). -/

namespace Sys2Proof.Machine

/-! ## The two halves of a fetched word -/

/-- Bits 15 to 8 of the fetched word are the byte at its address (R52). -/
theorem Memory.fetch16_high (m : Memory) (a : Nat) : (m.fetch16 a).extractLsb' 8 8 = m.read a :=
  BitVec.extractLsb'_append_eq_left

/-- Bits 7 to 0 of the fetched word are the byte after its address (R52). -/
theorem Memory.fetch16_low (m : Memory) (a : Nat) : (m.fetch16 a).extractLsb' 0 8 = m.read (a + 1) :=
  BitVec.extractLsb'_append_eq_right

/-- Settles O6: the word's value and its two halves, each by the law about it; they hold at every address. -/
theorem fetchIsBigEndian : Obligations.FetchIsBigEndian := fun m a _ _ =>
  ⟨Nat.mul_comm 256 _ ▸ m.toNat_fetch16 a, m.fetch16_high a, m.fetch16_low a⟩

/-! ## The block store, read back -/

/-- `V0` to `Vx` stored from `base` on within the address space read back as `Vj` at `base + j` (R155, R156). -/
theorem Memory.read_writeBytes_regsUpTo {m : Memory} {base : Nat} (v : Vector Byte 16) {x j : Reg} (hm : m.wf = true)
    (hwindow : base + x.val ≤ 0xFFF) (hj : j ≤ x) :
    (m.writeBytes base (regsUpTo v x)).read (base + j.val) = v[j] := by
  have hlt : j.val < (regsUpTo v x).length := by
    rw [length_regsUpTo]
    exact Nat.lt_succ_of_le hj
  have hfits : base + (regsUpTo v x).length ≤ 4096 := by
    rw [length_regsUpTo]
    omega
  calc (m.writeBytes base (regsUpTo v x)).read (base + j.val)
      = (regsUpTo v x)[j.val] := read_writeBytes hlt hfits hm
    _ = v[j] := getElem_regsUpTo v x j hlt

/-- After a block store that does not fault, the byte at `I + j` is `Vj` (R156). -/
theorem read_mem_of_exec_ldMemVx {x j : Reg} {s t : State} (hm : s.mem.wf = true)
    (hwindow : s.i.toNat + x.val ≤ 0xFFF) (ht : exec (.ldMemVx x) s = .next t) (hj : j ≤ x) :
    t.mem.read (s.i.toNat + j.val) = s.v[j] := by
  rw [exec_ldMemVx x hwindow, Host.Outcome.next.injEq] at ht
  subst ht
  exact Memory.read_writeBytes_regsUpTo s.v hm hwindow hj

/-- Settles O19: each half of the fetched word is a byte of the memory after the store, and that byte is the
register's. -/
theorem fetchSeesTheStoreBefore : Obligations.FetchSeesTheStoreBefore := by
  intro x s t a hm hwindow ht
  constructor
  · rintro j hj rfl
    rw [Memory.fetch16_high, read_mem_of_exec_ldMemVx hm hwindow ht hj]
  · intro j hj ha
    rw [Memory.fetch16_low, ha, read_mem_of_exec_ldMemVx hm hwindow ht hj]

end Sys2Proof.Machine

/-! SUPPORT. The rows of the opcode table: at most one fits a word (`30_encoding.md` R74), which words some row fits
(R75), and that a row's mask and its operand fields together are the whole word (R77). -/

namespace Sys2Proof

/-! ## The decoder follows the one row that fits (R74) -/

@[simp] theorem OpcodeRow.fits_iff {r : OpcodeRow} {w : Word} : r.fits w = true ↔ w &&& r.mask = r.pattern := by
  simp [OpcodeRow.fits]

/-- Two rows are disjoint when they differ in a bit that both fix. -/
abbrev OpcodeRow.Disjoint (r r' : OpcodeRow) : Prop := r.pattern &&& r'.mask ≠ r'.pattern &&& r.mask

/-- Disjoint rows do not fit one word: in it they would agree in the bits both fix. -/
theorem OpcodeRow.Disjoint.not_fits {r r' : OpcodeRow} (hd : r.Disjoint r') {w : Word} (h : w &&& r.mask = r.pattern) :
    w &&& r'.mask ≠ r'.pattern := by
  intro h'
  apply hd
  rw [← h, ← h', BitVec.and_assoc, BitVec.and_assoc, BitVec.and_comm r.mask]

theorem opcodeTable_pairwise_disjoint : opcodeTable.Pairwise OpcodeRow.Disjoint := by decide

/-- At most one row fits a word. -/
theorem row_unique {w : Word} {r r' : OpcodeRow} (hr : r ∈ opcodeTable) (hr' : r' ∈ opcodeTable)
    (h : w &&& r.mask = r.pattern) (h' : w &&& r'.mask = r'.pattern) : r = r' := by
  have hsymm : Std.Symm OpcodeRow.Disjoint := ⟨fun _ _ hd => hd.symm⟩
  by_contra hne
  exact (opcodeTable_pairwise_disjoint.forall hr hr' hne).not_fits h h'

/-- A word decodes to an instruction exactly when a row fits it and builds that instruction. -/
theorem decode_eq_ok_iff {w : Word} {i : Instr} :
    decode w = .ok i ↔ ∃ r ∈ opcodeTable, w &&& r.mask = r.pattern ∧ r.build w = i := by
  refine ⟨fun h => by simpa using decode_ok h, ?_⟩
  rintro ⟨r, hr, hfit, rfl⟩
  cases hdec : decode w with
  | ok j =>
    obtain ⟨r', hr', hfit', rfl⟩ := decode_ok hdec
    rw [row_unique hr hr' hfit (OpcodeRow.fits_iff.1 hfit')]
  | error e =>
    obtain ⟨-, hnone⟩ := decode_error hdec
    exact absurd (OpcodeRow.fits_iff.2 hfit) (Bool.eq_false_iff.1 (hnone r hr))

/-- A row that fits decides. -/
theorem decode_of_row {w : Word} {r : OpcodeRow} (hr : r ∈ opcodeTable) (h : w &&& r.mask = r.pattern) :
    decode w = .ok (r.build w) :=
  decode_eq_ok_iff.2 ⟨r, hr, h, rfl⟩

/-- A word that no row fits is illegal. -/
theorem decode_of_no_row {w : Word} (h : ∀ r ∈ opcodeTable, w &&& r.mask ≠ r.pattern) :
    decode w = .error (.illegal w) := by
  cases hdec : decode w with
  | ok i =>
    obtain ⟨r, hr, hfit, -⟩ := decode_eq_ok_iff.1 hdec
    exact absurd hfit (h r hr)
  | error e => rw [(decode_error hdec).1]

/-- Settles O2: the patterns are pairwise disjoint, so the row that fits decides, and where none fits nothing does. -/
theorem decodeFollowsTheDisjointTable : Obligations.DecodeFollowsTheDisjointTable :=
  ⟨by decide, fun _ _ _ => row_unique, fun _ => ⟨fun _ => decode_of_row, decode_of_no_row⟩⟩

/-! ## A row's condition, as arithmetic on the word (R75) -/

section
variable (w : Word)

theorem toNat_and_F000 : (w &&& 0xF000#16).toNat = w.toNat / 4096 * 4096 := by
  have hshift : w &&& 0xF000#16 = w >>> 12 <<< 12 := by
    ext i hi; interval_cases i <;> simp
  rw [hshift, BitVec.toNat_shiftLeft, BitVec.toNat_ushiftRight, Nat.shiftRight_eq_div_pow, Nat.shiftLeft_eq]
  omega

theorem toNat_and_000F : (w &&& 0x000F#16).toNat = w.toNat % 16 := Nat.and_two_pow_sub_one_eq_mod w.toNat 4

theorem toNat_and_00FF : (w &&& 0x00FF#16).toNat = w.toNat % 256 := Nat.and_two_pow_sub_one_eq_mod w.toNat 8

/-- What two masks without a common bit select adds up. -/
theorem toNat_and_or_of_disjoint {m m' : Word} (h : m &&& m' = 0#16) :
    (w &&& (m ||| m')).toNat = (w &&& m).toNat + (w &&& m').toNat := by
  have hdisjoint : (w &&& m) &&& (w &&& m') = 0#16 :=
    calc (w &&& m) &&& (w &&& m') = (w &&& w) &&& (m &&& m') := by ac_rfl
      _ = 0#16 := by rw [h, BitVec.and_zero]
  rw [BitVec.and_or_distrib_left, ← BitVec.add_eq_or_of_and_eq_zero _ _ hdisjoint,
    BitVec.toNat_add_of_and_eq_zero hdisjoint]

theorem toNat_and_F00F : (w &&& 0xF00F#16).toNat = w.toNat / 4096 * 4096 + w.toNat % 16 := by
  rw [← toNat_and_F000, ← toNat_and_000F]
  exact toNat_and_or_of_disjoint w (m := 0xF000#16) (m' := 0x000F#16) rfl

theorem toNat_and_F0FF : (w &&& 0xF0FF#16).toNat = w.toNat / 4096 * 4096 + w.toNat % 256 := by
  rw [← toNat_and_F000, ← toNat_and_00FF]
  exact toNat_and_or_of_disjoint w (m := 0xF000#16) (m' := 0x00FF#16) rfl
end

section
variable {w p : Word}

/-- A row of mask `F000` fixes the family. -/
theorem and_F000_eq_iff (hp : p &&& 0xF000#16 = p) : w &&& 0xF000#16 = p ↔ w.toNat / 4096 = p.toNat / 4096 := by
  have hpNat := toNat_and_F000 p
  rw [hp] at hpNat
  rw [← BitVec.toNat_inj, toNat_and_F000]
  omega

/-- A row of mask `F00F` fixes the family and `n`. -/
theorem and_F00F_eq_iff (hp : p &&& 0xF00F#16 = p) :
    w &&& 0xF00F#16 = p ↔ w.toNat / 4096 = p.toNat / 4096 ∧ w.toNat % 16 = p.toNat % 16 := by
  have hpNat := toNat_and_F00F p
  rw [hp] at hpNat
  rw [← BitVec.toNat_inj, toNat_and_F00F]
  omega

/-- A row of mask `F0FF` fixes the family and `kk`. -/
theorem and_F0FF_eq_iff (hp : p &&& 0xF0FF#16 = p) :
    w &&& 0xF0FF#16 = p ↔ w.toNat / 4096 = p.toNat / 4096 ∧ w.toNat % 256 = p.toNat % 256 := by
  have hpNat := toNat_and_F0FF p
  rw [hp] at hpNat
  rw [← BitVec.toNat_inj, toNat_and_F0FF]
  omega
end

/-- A row of mask `FFFF` fixes the word. -/
theorem and_FFFF (w : Word) : w &&& 0xFFFF#16 = w := BitVec.and_allOnes

/-! ## The legal words, by part of the table (R75) -/

section
variable (w : Word)

theorem exists_row0to7_fits :
    (∃ r ∈ opcodeRows0to7, w &&& r.mask = r.pattern) ↔
      w = 0x00E0 ∨ w = 0x00EE ∨ w.toNat / 4096 ∈ [1, 2, 3, 4] ∨ (w.toNat / 4096 = 5 ∧ w.toNat % 16 = 0) ∨
        w.toNat / 4096 ∈ [6, 7] := by
  simp [opcodeRows0to7, and_FFFF, and_F000_eq_iff, and_F00F_eq_iff, or_assoc]

theorem exists_row8_fits :
    (∃ r ∈ opcodeRows8, w &&& r.mask = r.pattern) ↔
      w.toNat / 4096 = 8 ∧ w.toNat % 16 ∈ [0, 1, 2, 3, 4, 5, 6, 7, 14] := by
  simp [opcodeRows8, and_F00F_eq_iff, ← and_or_left]

theorem exists_row9toE_fits :
    (∃ r ∈ opcodeRows9toE, w &&& r.mask = r.pattern) ↔
      w.toNat / 4096 = 9 ∧ w.toNat % 16 = 0 ∨ w.toNat / 4096 ∈ [0xA, 0xB, 0xC, 0xD] ∨
        w.toNat / 4096 = 0xE ∧ w.toNat % 256 ∈ [0x9E, 0xA1] := by
  simp [opcodeRows9toE, and_F000_eq_iff, and_F00F_eq_iff, and_F0FF_eq_iff, ← and_or_left, or_assoc]

theorem exists_rowF_fits :
    (∃ r ∈ opcodeRowsF, w &&& r.mask = r.pattern) ↔
      w.toNat / 4096 = 0xF ∧ w.toNat % 256 ∈ [0x07, 0x0A, 0x15, 0x18, 0x1E, 0x29, 0x33, 0x55, 0x65] := by
  simp [opcodeRowsF, and_F0FF_eq_iff, ← and_or_left]

/-- A word is legal exactly when a row of one of the table's four parts fits it. -/
theorem decode_ok_iff_part :
    (∃ i, decode w = .ok i) ↔
      (∃ r ∈ opcodeRows0to7, w &&& r.mask = r.pattern) ∨ (∃ r ∈ opcodeRows8, w &&& r.mask = r.pattern) ∨
      (∃ r ∈ opcodeRows9toE, w &&& r.mask = r.pattern) ∨ (∃ r ∈ opcodeRowsF, w &&& r.mask = r.pattern) := by
  calc (∃ i, decode w = .ok i) ↔ ∃ r ∈ opcodeTable, w &&& r.mask = r.pattern := by simp [decode_eq_ok_iff]
    _ ↔ _ := by simp only [opcodeTable, List.mem_append, or_and_right, exists_or, or_assoc]

end

/-- Settles O3: a legal word fits a row of one part of the table, and the four parts' lines are those of R75. -/
theorem legalWordsOfEachFamily : Obligations.LegalWordsOfEachFamily := by
  intro w
  have hfamily0 : w.toNat / 4096 = 0 ∧ (w = 0x00E0 ∨ w = 0x00EE) ↔ w = 0x00E0 ∨ w = 0x00EE :=
    and_iff_right_of_imp (by rintro (rfl | rfl) <;> rfl)
  rw [decode_ok_iff_part, exists_row0to7_fits, exists_row8_fits, exists_row9toE_fits, exists_rowF_fits]
  simp only [hfamily0, List.mem_cons, List.not_mem_nil, or_false, or_assoc]
  refine iff_of_eq ?_
  ac_rfl

/-! ## The mask and the operand fields are the whole word (R77) -/

section
variable (w : Word)

theorem partX_fieldX : partX (fieldX w) = w &&& 0x0F00#16 := by
  have hextract : partX (fieldX w) = (w.extractLsb' 8 4).setWidth 16 <<< 8 := rfl
  ext i hi; interval_cases i <;> simp [hextract]

theorem partY_fieldY : partY (fieldY w) = w &&& 0x00F0#16 := by
  have hextract : partY (fieldY w) = (w.extractLsb' 4 4).setWidth 16 <<< 4 := rfl
  ext i hi; interval_cases i <;> simp [hextract]

theorem partN_fieldN : partN (fieldN w) = w &&& 0x000F#16 := by
  have hextract : partN (fieldN w) = (w.extractLsb' 0 4).setWidth 16 := rfl
  ext i hi; interval_cases i <;> simp [hextract]

theorem partKk_fieldKk : partKk (fieldKk w) = w &&& 0x00FF#16 := by
  ext i hi; interval_cases i <;> simp [partKk, fieldKk]

theorem partNnn_fieldNnn : partNnn (fieldNnn w) = w &&& 0x0FFF#16 := by
  ext i hi; interval_cases i <;> simp [partNnn, fieldNnn]
end

section
variable {w op : Word}

theorem wordA_fieldNnn (h : w &&& 0xF000#16 = op) : wordA op (fieldNnn w) = w := by
  rw [wordA_eq, partNnn_fieldNnn, ← h, ← BitVec.and_or_distrib_left]
  exact and_FFFF w

theorem wordXK_fields (h : w &&& 0xF000#16 = op) : wordXK op (fieldX w) (fieldKk w) = w := by
  rw [wordXK_eq, partX_fieldX, partKk_fieldKk, ← h, ← BitVec.and_or_distrib_left, ← BitVec.and_or_distrib_left]
  exact and_FFFF w

theorem wordXY_fields (h : w &&& 0xF00F#16 = op) : wordXY op (fieldX w) (fieldY w) = w := by
  rw [wordXY_eq, partX_fieldX, partY_fieldY, ← h, ← BitVec.and_or_distrib_left, ← BitVec.and_or_distrib_left]
  exact and_FFFF w

theorem wordX_fieldX (h : w &&& 0xF0FF#16 = op) : wordX op (fieldX w) = w := by
  rw [wordX_eq, partX_fieldX, ← h, ← BitVec.and_or_distrib_left]
  exact and_FFFF w

theorem wordXYN_fields (h : w &&& 0xF000#16 = op) : wordXYN op (fieldX w) (fieldY w) (fieldN w) = w := by
  rw [wordXYN_eq, partX_fieldX, partY_fieldY, partN_fieldN, ← h, ← BitVec.and_or_distrib_left,
    ← BitVec.and_or_distrib_left, ← BitVec.and_or_distrib_left]
  exact and_FFFF w
end

/-! ## Each row re-encodes the words it fits, the shifts' rows excepted -/

section
variable {w : Word} {r : OpcodeRow}

theorem encode_build_row0to7 (hr : r ∈ opcodeRows0to7) (h : w &&& r.mask = r.pattern) : encode (r.build w) = w := by
  revert r
  simp only [opcodeRows0to7, List.forall_mem_cons]
  have hfixed {op : Word} (h : w &&& 0xFFFF#16 = op) : op = w := h.symm.trans (and_FFFF w)
  exact ⟨hfixed, hfixed, wordA_fieldNnn, wordA_fieldNnn, wordXK_fields, wordXK_fields, wordXY_fields, wordXK_fields,
    wordXK_fields, List.forall_mem_nil _⟩

theorem encode_build_row8 (hr : r ∈ opcodeRows8) (h : w &&& r.mask = r.pattern) (hshr : ∀ x, r.build w ≠ .shr x)
    (hshl : ∀ x, r.build w ≠ .shl x) : encode (r.build w) = w := by
  revert r
  simp only [opcodeRows8, List.forall_mem_cons]
  have hxy {op : Word} {P Q : Prop} (h : w &&& 0xF00F#16 = op) (_ : P) (_ : Q) : wordXY op (fieldX w) (fieldY w) = w :=
    wordXY_fields h
  exact ⟨hxy, hxy, hxy, hxy, hxy, hxy, fun _ hshr _ => absurd rfl (hshr (fieldX w)), hxy,
    fun _ _ hshl => absurd rfl (hshl (fieldX w)), List.forall_mem_nil _⟩

theorem encode_build_row9toE (hr : r ∈ opcodeRows9toE) (h : w &&& r.mask = r.pattern) : encode (r.build w) = w := by
  revert r
  simp only [opcodeRows9toE, List.forall_mem_cons]
  exact ⟨wordXY_fields, wordA_fieldNnn, wordA_fieldNnn, wordXK_fields, wordXYN_fields, wordX_fieldX, wordX_fieldX,
    List.forall_mem_nil _⟩

theorem encode_build_rowF (hr : r ∈ opcodeRowsF) (h : w &&& r.mask = r.pattern) : encode (r.build w) = w := by
  revert r
  simp only [opcodeRowsF, List.forall_mem_cons]
  exact ⟨wordX_fieldX, wordX_fieldX, wordX_fieldX, wordX_fieldX, wordX_fieldX, wordX_fieldX, wordX_fieldX,
    wordX_fieldX, wordX_fieldX, List.forall_mem_nil _⟩

/-- A decoded word that is no shift is the encoding of its instruction. -/
theorem encode_of_decode {i : Instr} (h : decode w = .ok i) (hshr : ∀ x, i ≠ .shr x) (hshl : ∀ x, i ≠ .shl x) :
    encode i = w := by
  obtain ⟨r, hr, hfit, rfl⟩ := decode_eq_ok_iff.1 h
  simp only [opcodeTable, List.mem_append] at hr
  obtain ((hr | hr) | hr) | hr := hr
  · exact encode_build_row0to7 hr hfit
  · exact encode_build_row8 hr hfit hshr hshl
  · exact encode_build_row9toE hr hfit
  · exact encode_build_rowF hr hfit
end

/-! ## The words of a row that takes `x` and `y` -/

/-- A row of mask `F00F` fits its bits with any `x` and `y` put in, and reads `x` and `y` back. -/
theorem decode_wordXY {op : Word} {build : Reg → Reg → Instr}
    (hrow : ⟨op, 0xF00F, fun w => build (fieldX w) (fieldY w)⟩ ∈ opcodeTable) (hop : op &&& 0xF00F#16 = op)
    (x y : Reg) : decode (wordXY op x y) = .ok (build x y) := by
  have hfit : wordXY op x y &&& 0xF00F#16 = op := by simp [wordXY_eq, BitVec.and_or_distrib_right, hop]
  have hx : fieldX (wordXY op x y) = x := by
    rw [← hop]; simp [wordXY_eq, fieldX, BitVec.extractLsb'_or, BitVec.extractLsb'_and]
  have hy : fieldY (wordXY op x y) = y := by
    rw [← hop]; simp [wordXY_eq, fieldY, BitVec.extractLsb'_or, BitVec.extractLsb'_and]
  simp only [decode_of_row hrow hfit, hx, hy]

theorem wordXY_eq_x8_y4 (op : Word) (x y : Reg) : wordXY op x y = op ||| x8 x ||| y4 y := by
  rw [wordXY_eq, partX_eq_x8, partY_eq_y4]

theorem decode_shr (x y : Reg) : decode (0x8006 ||| x8 x ||| y4 y) = .ok (.shr x) := by
  rw [← wordXY_eq_x8_y4]
  exact decode_wordXY (build := fun x _ => .shr x) (by simp [opcodeTable, opcodeRows8]) rfl x y

theorem decode_shl (x y : Reg) : decode (0x800E ||| x8 x ||| y4 y) = .ok (.shl x) := by
  rw [← wordXY_eq_x8_y4]
  exact decode_wordXY (build := fun x _ => .shl x) (by simp [opcodeTable, opcodeRows8]) rfl x y

/-- Settles O5: the shifts' rows read `x` alone, and every other row re-encodes the words it fits. -/
theorem onlyShiftsIgnoreAField : Obligations.OnlyShiftsIgnoreAField :=
  ⟨fun x y => ⟨decode_shr x y, decode_shl x y⟩, fun _ _ => encode_of_decode⟩

end Sys2Proof

/-! SUPPORT. What the fetch checks, a slot, the loop and the end of a tick answer, case by case (`40_cycle.md` R90 to
R94), and what each class of instruction leaves in `PC` (R96). -/

namespace Sys2Proof.Machine

/-! ## The fetch checks (R93) -/

section
variable {s : State}

theorem pc_getLsbD_zero : s.pc.getLsbD 0 = decide (s.pc.toNat % 2 = 1) := by
  rw [BitVec.getLsbD, Nat.testBit_zero]

theorem fetchFault_of_odd (hodd : s.pc.toNat % 2 = 1) : fetchFault s = some (.pcMisaligned s.pc) :=
  if_pos (by rw [pc_getLsbD_zero, hodd]; rfl)

theorem fetchFault_of_high (heven : s.pc.toNat % 2 = 0) (hhigh : 0xFFE < s.pc.toNat) :
    fetchFault s = some (.pcOutOfRange s.pc) :=
  (if_neg (by rw [pc_getLsbD_zero, heven]; decide)).trans (if_pos hhigh)

theorem fetchFault_of_fetchable (heven : s.pc.toNat % 2 = 0) (hpc : s.pc.toNat ≤ 0xFFE) : fetchFault s = none :=
  fetchFault_eq_none.2 ⟨by rw [pc_getLsbD_zero, heven]; rfl, hpc⟩

/-! ## One slot (R92 to R95) -/

theorem instrStep_of_fetchFault {f : Fault} (hfetch : fetchFault s = some f) : instrStep s = .next (s.raise f) := by
  simp [instrStep, hfetch]

theorem instrStep_of_decode {i : Instr} (hfetch : fetchFault s = none) (hdec : decode s.fetched = .ok i) :
    instrStep s = exec i s := by
  simp [instrStep, hfetch, hdec]

theorem instrStep_of_illegal (hfetch : fetchFault s = none) (hdec : ∀ i, decode s.fetched ≠ .ok i) :
    instrStep s = .next (s.raise (.illegalInstruction s.fetched)) := by
  obtain ⟨f, hf, -⟩ | ⟨-, -, h⟩ | ⟨i, -, hi, -⟩ := instrStep_cases (rfl : instrStep s = _)
  · exact absurd (hfetch.symm.trans hf) (by simp)
  · exact h
  · exact absurd hi (hdec i)

/-- A fault whose information is a word records that word as it is (R203). -/
theorem State.raise_of_info {f : Fault} {w : Word} (hinfo : f.info = w.toNat) :
    s.raise f = { s with rs := .halted, fcause := f.code, finfo := w } := by
  simp [State.raise, hinfo]

end

/-- Settles O30: each clause is one branch of the slot, and its fault's information is the word recorded. -/
theorem slotRunsTheDecodedInstruction : Obligations.SlotRunsTheDecodedInstruction := by
  intro s
  refine ⟨fun hodd => ?_, fun heven hhigh => ?_, fun heven hpc => ⟨fun i hdec => ?_, fun hdec => ?_⟩⟩
  · rw [instrStep_of_fetchFault (fetchFault_of_odd hodd), State.raise_of_info rfl]
    rfl
  · rw [instrStep_of_fetchFault (fetchFault_of_high heven hhigh), State.raise_of_info rfl]
    rfl
  · exact instrStep_of_decode (fetchFault_of_fetchable heven hpc) hdec
  · rw [instrStep_of_illegal (fetchFault_of_fetchable heven hpc) hdec, State.raise_of_info rfl]
    rfl

/-! ## The loop and the end of a tick (R90, R91, R99) -/

section
variable {s t : State}

/-- While the core runs, the later slots of a tick are a loop of their own. -/
theorem moreSlots_of_running (k : Nat) (hrun : s.rs = .running) : moreSlots k s = slots k s := by
  cases k with
  | zero => rfl
  | succ k => exact if_pos hrun

theorem moreSlots_of_not_running (k : Nat) (hrun : s.rs ≠ .running) : moreSlots k s = .next s := by
  cases k with
  | zero => rfl
  | succ k => exact if_neg hrun

/-- The loop after a first slot that answers a state. -/
theorem slots_succ (k : Nat) (hslot : instrStep s = .next t) : slots (k + 1) s = moreSlots k t := by
  rw [slots, hslot, andThen_next]

theorem endTick_of_running (hrun : t.rs = .running) : endTick t = t.timerStep := if_pos hrun

theorem endTick_of_not_running (hrun : t.rs ≠ .running) : endTick t = t := if_neg hrun

theorem step_of_halted (hr : s.rs = .halted) : step s = .next s := if_pos hr

theorem step_of_slots (hr : s.rs ≠ .halted) (hslots : slots s.ipt s.sampleKeys = .next t) :
    step s = .next (endTick t) := by
  rw [step, tick, if_neg hr, hslots, andThen_next]

/-- With one slot a tick, a step is the sample, the decoded instruction and the end of the tick (R92, R101). -/
theorem step_of_exec {i : Instr} (hr : s.rs ≠ .halted) (hipt : s.ipt = 1) (heven : s.pc.toNat % 2 = 0)
    (hpc : s.pc.toNat ≤ 0xFFE) (hdec : decode (s.mem.fetch16 s.pc.toNat) = .ok i)
    (hexec : exec i s.sampleKeys = .next t) : step s = .next (endTick t) := by
  have hfetch : fetchFault s.sampleKeys = none := fetchFault_of_fetchable heven hpc
  have hslot : instrStep s.sampleKeys = .next t := (instrStep_of_decode hfetch hdec).trans hexec
  refine step_of_slots hr ?_
  rw [hipt, slots_succ 0 hslot, moreSlots]

theorem step_of_exec_running {i : Instr} (hr : s.rs ≠ .halted) (hipt : s.ipt = 1) (heven : s.pc.toNat % 2 = 0)
    (hpc : s.pc.toNat ≤ 0xFFE) (hdec : decode (s.mem.fetch16 s.pc.toNat) = .ok i)
    (hexec : exec i s.sampleKeys = .next t) (hrun : t.rs = .running) : step s = .next t.timerStep := by
  rw [step_of_exec hr hipt heven hpc hdec hexec, endTick_of_running hrun]

end

/-- A byte counted down by one and floored at 0, as a number. -/
theorem toNat_countDown (b : Byte) : (if b = 0 then 0 else b - 1).toNat = b.toNat - 1 := by
  split
  · next h => simp [h]
  · next h => bv_omega

theorem State.toNat_timerStep_dt (s : State) : s.timerStep.dt.toNat = s.dt.toNat - 1 := toNat_countDown s.dt

theorem State.toNat_timerStep_st (s : State) : s.timerStep.st.toNat = s.st.toNat - 1 := toNat_countDown s.st

/-- Settles O33: the tick's first branch. -/
theorem haltedTickChangesNothing : Obligations.HaltedTickChangesNothing := fun _ => step_of_halted

/-- Settles O31: the step ends the tick on the state the instruction answers, and `TimerStep` writes the timers only. -/
theorem stepIsSampleThenInstructionThenTimers : Obligations.StepIsSampleThenInstructionThenTimers := by
  intro i s t hr hipt heven hpc hdec hexec
  refine ⟨endTick t, step_of_exec hr hipt heven hpc hdec hexec, fun hrun => ?_, endTick_of_not_running⟩
  rw [endTick_of_running hrun]
  exact ⟨t.toNat_timerStep_dt, t.toNat_timerStep_st, rfl⟩

/-- Settles O32: after the first slot the loop either stops or goes on as a loop of the remaining slots, and the tick's
end looks at the run state once. -/
theorem laterSlotsRunWhileRunning : Obligations.LaterSlotsRunWhileRunning := by
  intro k s t hr hipt hslot
  have hloop : slots s.ipt s.sampleKeys = moreSlots (k + 1) t := by rw [hipt, slots_succ (k + 1) hslot]
  constructor
  · intro hstop
    rw [moreSlots_of_not_running (k + 1) hstop] at hloop
    rw [step_of_slots hr hloop, endTick_of_not_running hstop]
  · intro hrun u hu
    rw [moreSlots_of_running (k + 1) hrun, hu] at hloop
    rw [step_of_slots hr hloop]
    exact ⟨fun h => by rw [endTick_of_running h], fun h => by rw [endTick_of_not_running h]⟩

/-- `TONE` is on while `ST` is not 0 (`10_state.md` R45). -/
theorem State.tone_iff {s : State} : s.tone = true ↔ 1 ≤ s.st.toNat := by
  rw [State.tone, bne_iff_ne]
  bv_omega

/-- Settles O29: the load writes its timer, and the end of the same tick counts both timers down. -/
theorem timerLoadIsDecrementedInItsTick : Obligations.TimerLoadIsDecrementedInItsTick := by
  intro x s hrun hipt heven hpc
  have hr : s.rs ≠ .halted := by simp [hrun]
  constructor
  · intro hdec
    have hstep := step_of_exec_running hr hipt heven hpc hdec (t := (s.sampleKeys.setDt (s.reg x)).advance) rfl hrun
    exact ⟨_, hstep, State.toNat_timerStep_dt _, State.toNat_timerStep_st _, rfl⟩
  · intro hdec
    have hstep := step_of_exec_running hr hipt heven hpc hdec (t := (s.sampleKeys.setSt (s.reg x)).advance) rfl hrun
    have hst : (s.sampleKeys.setSt (s.reg x)).advance.timerStep.st.toNat = s.v[x].toNat - 1 :=
      State.toNat_timerStep_st _
    refine ⟨_, hstep, hst, State.toNat_timerStep_dt _, rfl, ?_⟩
    rw [State.tone_iff, hst]
    omega

/-! ## `PC` after an instruction, by class (R96) -/

/-- The entry a return pops, in the list of the stack's entries. -/
theorem State.top_eq_getD (s : State) : s.top = s.stack.toList.getD (s.sp.val - 1) 0 := by
  have hlt : s.sp.val - 1 < s.stack.toList.length := by
    rw [Vector.length_toList]
    omega
  rw [List.getD_eq_getElem _ _ hlt, Vector.getElem_toList, State.top]

/-- The sum of `JP V0, nnn` fits in `PC`, so nothing of it is lost (R114). -/
theorem toNat_jpV0_target (nnn : Addr12) (b : Byte) :
    (BitVec.ofNat 16 (nnn.toNat + b.toNat)).toNat = nnn.toNat + b.toNat := by
  rw [BitVec.toNat_ofNat]
  omega

/-- The key load stays at its own address until a key event arrives (R178). -/
theorem State.loadKey_pc (s : State) (x : Reg) :
    (s.loadKey x).pc = if s.keyEvent = none then s.pc else s.pc + 2 := by
  unfold State.loadKey
  split
  · next h => simp [h]
  · next k h => simp [h]

/-- Settles O34: a fault halts the core, so the instruction completes, and its effect's last write is that of its
class. -/
theorem programCounterByClass : Obligations.ProgramCounterByClass := by
  intro i s t _ h hrun
  obtain ⟨f, -, rfl⟩ | ⟨-, rfl⟩ := exec_next_cases h
  · exact absurd rfl hrun
  · cases i with
    | ret => exact s.top_eq_getD
    | jp nnn | call nnn => exact toNat_zextAddr nnn
    | jpV0 nnn => exact toNat_jpV0_target nnn (s.reg 0)
    | seImm | seReg => exact if_congr beq_iff_eq rfl rfl
    | sneImm | sneReg => exact if_congr bne_iff_ne rfl rfl
    | skp x => rfl
    | sknp x => exact (if_congr Bool.not_iff_not rfl rfl).trans (ite_not _ _ _)
    | ldVxK x => exact s.loadKey_pc x
    | _ => rfl

end Sys2Proof.Machine

/-! SUPPORT. Control transfers (`41_control_flow.md`): the words that decode to them, and the frame of a push. -/

namespace Sys2Proof.Machine

/-! ## The words of the rules -/

/-- The encoder's word of an instruction decodes to it, once a row of the table is known to fit it (R74). -/
theorem decode_encode_of_rowFits {i : Instr} (h : Laws.RowFits.Statement i) : decode (encode i) = .ok i := by
  obtain ⟨r, hr, hfit, hbuild⟩ := h
  exact decode_eq_ok_iff.2 ⟨r, hr, OpcodeRow.fits_iff.1 hfit, hbuild⟩

/-! ## `RET`, `JP nnn` and `JP V0, nnn` -/

/-- Settles O7: a return moves the top entry to `PC` or raises its fault, and each jump writes its target as it is. -/
theorem retAndJumpsGoToAbsoluteTargets : Obligations.RetAndJumpsGoToAbsoluteTargets := by
  refine ⟨decode_encode_of_rowFits Laws.RowFits.ret, fun s hsp => ?_, fun s hsp => exec_ret_fault hsp,
    fun nnn s => ⟨⟨?_, ?_⟩, ?_, ?_⟩⟩
  · exact ⟨_, exec_ret hsp, s.drop_sp_val, s.top_eq_getD, rfl⟩
  · exact decode_encode_of_rowFits (Laws.RowFits.jp nnn)
  · exact ⟨_, rfl, toNat_zextAddr nnn, rfl⟩
  · exact decode_encode_of_rowFits (Laws.RowFits.jpV0 nnn)
  · exact ⟨_, rfl, toNat_jpV0_target nnn (s.reg 0), rfl⟩

/-! ## `CALL` -/

/-- A push writes the stack and its pointer, and nothing else (R25, R26). -/
theorem State.push_frame (s : State) (a : Word) :
    s.push a = { s with sp := (s.push a).sp, stack := (s.push a).stack } := by
  unfold State.push
  split <;> rfl

/-- Settles O8: with room on the stack the call pushes the return address and jumps; with none it raises its fault. -/
theorem callPushesTheReturnAddress : Obligations.CallPushesTheReturnAddress := by
  refine fun nnn s => ⟨decode_encode_of_rowFits (Laws.RowFits.call nnn), fun hsp => ?_, exec_call_fault nnn⟩
  have hframe := congrArg (·.setPc (zextAddr nnn)) (s.push_frame (s.pc + 2))
  exact ⟨_, exec_call nnn hsp, s.push_sp_val _ hsp, toNat_zextAddr nnn, s.push_stack _ hsp, hframe⟩

end Sys2Proof.Machine

/-! SUPPORT. The words of formats `XK` and `XY` in the spec's own notation, and the skips (`42_skips.md`). -/

namespace Sys2Proof

/-- The encoder's format `XK` is the spec's `op | x<<8 | kk` (R71). -/
theorem wordXK_eq_x8 (op : Word) (x : Reg) (kk : Byte) : wordXK op x kk = op ||| x8 x ||| kk.setWidth 16 := by
  rw [wordXK_eq, partX_eq_x8, partKk]

namespace Machine

/-- The spec's word of an instruction of format `XK` decodes to it, once a row of the table fits it (R74). -/
theorem decode_x8_kk {i : Instr} {op : Word} {x : Reg} {kk : Byte} (hfit : Laws.RowFits.Statement i)
    (henc : encode i = wordXK op x kk) : decode (op ||| x8 x ||| kk.setWidth 16) = .ok i := by
  rw [← wordXK_eq_x8, ← henc, decode_encode_of_rowFits hfit]

/-- The spec's word of an instruction of format `XY` decodes to it, once a row of the table fits it (R74). -/
theorem decode_x8_y4 {i : Instr} {op : Word} {x y : Reg} (hfit : Laws.RowFits.Statement i)
    (henc : encode i = wordXY op x y) : decode (op ||| x8 x ||| y4 y) = .ok i := by
  rw [← wordXY_eq_x8_y4, ← henc, decode_encode_of_rowFits hfit]

/-! ## The four skips -/

/-- An instruction with no check whose effect skips on a test for `p` writes `PC` as `p` says, and nothing else (R96). -/
theorem exec_of_skipIf {i : Instr} {s : State} {taken : Bool} {p : Prop} [Decidable p] (hcheck : faultCheck i s = none)
    (heffect : effect i s = s.skipIf taken) (htaken : taken = true ↔ p) :
    exec i s = .next { s with pc := if p then s.pc + 4 else s.pc + 2 } := by
  rw [exec_eq, hcheck, heffect, State.skipIf, if_congr htaken rfl rfl]
  rfl

/-- Settles O10: the word of each skip fits its row, and its effect is a skip on `==` or `!=`. -/
theorem skipsCompareForEquality : Obligations.SkipsCompareForEquality := by
  refine fun x y kk s => ⟨⟨?_, ?_⟩, ⟨?_, ?_⟩, ⟨?_, ?_⟩, ?_, ?_⟩
  · exact decode_x8_kk (Laws.RowFits.seImm x kk) rfl
  · exact exec_of_skipIf rfl rfl beq_iff_eq
  · exact decode_x8_kk (Laws.RowFits.sneImm x kk) rfl
  · exact exec_of_skipIf rfl rfl bne_iff_ne
  · exact decode_x8_y4 (Laws.RowFits.seReg x y) rfl
  · exact exec_of_skipIf rfl rfl beq_iff_eq
  · exact decode_x8_y4 (Laws.RowFits.sneReg x y) rfl
  · exact exec_of_skipIf rfl rfl bne_iff_ne

end Machine

end Sys2Proof

/-! SUPPORT. Register loads, logic and arithmetic (`43_alu.md`): the values of the shifts and the flags as numbers, and what
the write of a result, alone or after a flag, leaves in the state. -/

namespace Sys2Proof.Machine

/-! ## The values -/

/-- A flag is 1 where its condition holds, and 0 elsewhere (R22). -/
theorem flagByte_decide (p : Prop) [Decidable p] : flagByte (decide p) = if p then 1 else 0 :=
  if_congr decide_eq_true_iff rfl rfl

theorem toNat_lowBitFlag (b : Byte) : (lowBitFlag b).toNat = b.toNat % 2 := Nat.and_two_pow_sub_one_eq_mod b.toNat 1

theorem toNat_highBitFlag (b : Byte) : (highBitFlag b).toNat = b.toNat / 128 := by
  have hlow : (highBitFlag b).toNat = (b >>> 7).toNat % 2 := toNat_lowBitFlag (b >>> 7)
  rw [hlow, BitVec.toNat_ushiftRight, Nat.shiftRight_eq_div_pow]
  omega

theorem toNat_shiftRight_one (b : Byte) : (b >>> 1).toNat = b.toNat / 2 := by
  rw [BitVec.toNat_ushiftRight, Nat.shiftRight_eq_div_pow, Nat.pow_one]

theorem toNat_shiftLeft_one (b : Byte) : (b <<< 1).toNat = 2 * b.toNat % 256 := by
  rw [BitVec.toNat_shiftLeft, Nat.shiftLeft_eq, Nat.pow_one, Nat.mul_comm]

/-! ## A result, alone or after its flag -/

section
variable {i : Instr} {s : State} {x : Reg} {flag result : Byte} {n : Nat}

/-- A write of one register and `PC` leaves the result in the register and the rest of the state as it was. -/
theorem exec_of_setReg (hexec : exec i s = .next (s.setReg x result).advance) (hresult : result.toNat = n) :
    ∃ t, exec i s = .next t ∧ t.v[x].toNat = n ∧ t = { s with v := s.v.set x t.v[x], pc := s.pc + 2 } := by
  have hx : (s.setReg x result).advance.v[x] = result := s.reg_setReg_same x result
  refine ⟨_, hexec, ?_, ?_⟩
  · rw [hx, hresult]
  · rw [hx]
    rfl

/-- A write of a flag and then of a result leaves the result in `Vx` whatever `x` is, the flag in `VF` where `x` does not
name it, and writes nothing else but `PC` (R131, decision D12). `isFlag` is what the instruction's rule says of the flag. -/
theorem exec_of_setFlagThenReg (isFlag : Byte → Prop) (hexec : exec i s = .next (s.setFlagThenReg flag x result).advance)
    (hresult : result.toNat = n) (hflag : isFlag flag) :
    ∃ t, exec i s = .next t ∧ t.v[x].toNat = n ∧ (x ≠ 15 → isFlag t.v[(15 : Reg)]) ∧
      t = { s with v := (s.v.set 15 t.v[(15 : Reg)]).set x t.v[x], pc := s.pc + 2 } := by
  have hx : (s.setFlagThenReg flag x result).advance.v[x] = result := (s.setReg VF flag).reg_setReg_same x result
  have hVF (h : x ≠ 15) : (s.setFlagThenReg flag x result).advance.v[(15 : Reg)] = flag :=
    ((s.setReg VF flag).reg_setReg_other x VF result h.symm).trans (s.reg_setReg_same VF flag)
  refine ⟨_, hexec, ?_, fun h => ?_, ?_⟩
  · rw [hx, hresult]
  · rwa [hVF h]
  · obtain rfl | h := eq_or_ne x 15
    · have hset : (s.v.set 15 flag).set 15 result = (s.v.set 15 result).set 15 result := by
        rw [Vector.set_set, Vector.set_set]
      rw [hx]
      exact congrArg (fun v => (s.setRegs v).advance) hset
    · rw [hx, hVF h]
      rfl

end

/-- Settles O12: each writes its flag and then its result, whose values are the rule's numbers. -/
theorem flagArithmeticWritesResultAndFlag : Obligations.FlagArithmeticWritesResultAndFlag := by
  refine fun x y s => ⟨⟨?_, ?_⟩, ⟨?_, ?_⟩, ⟨?_, ?_⟩, ⟨?_, ?_⟩, ?_, ?_⟩
  · exact decode_x8_y4 (Laws.RowFits.addReg x y) rfl
  · exact exec_of_setFlagThenReg (· = _) rfl (toNat_addBytes _ _) (flagByte_decide _)
  · exact decode_x8_y4 (Laws.RowFits.subReg x y) rfl
  · exact exec_of_setFlagThenReg (· = _) rfl (toNat_subBytes _ _) (flagByte_decide _)
  · exact decode_shr x y
  · exact exec_of_setFlagThenReg (·.toNat = _) rfl (toNat_shiftRight_one _) (toNat_lowBitFlag _)
  · exact decode_x8_y4 (Laws.RowFits.subnReg x y) rfl
  · exact exec_of_setFlagThenReg (· = _) rfl (toNat_subBytes _ _) (flagByte_decide _)
  · exact decode_shl x y
  · exact exec_of_setFlagThenReg (·.toNat = _) rfl (toNat_shiftLeft_one _) (toNat_highBitFlag _)

/-- Settles O11: each writes one value to `Vx`, the immediate add's being the sum modulo 256. -/
theorem loadsAddImmediateAndLogic : Obligations.LoadsAddImmediateAndLogic := by
  refine fun x y kk s => ⟨⟨?_, rfl⟩, ⟨?_, ?_⟩, ⟨?_, rfl⟩, ⟨?_, rfl⟩, ⟨?_, rfl⟩, ?_, rfl⟩
  · exact decode_x8_kk (Laws.RowFits.ldImm x kk) rfl
  · exact decode_x8_kk (Laws.RowFits.addImm x kk) rfl
  · exact exec_of_setReg rfl (toNat_addBytes _ _)
  · exact decode_x8_y4 (Laws.RowFits.ldReg x y) rfl
  · exact decode_x8_y4 (Laws.RowFits.orReg x y) rfl
  · exact decode_x8_y4 (Laws.RowFits.andReg x y) rfl
  · exact decode_x8_y4 (Laws.RowFits.xorReg x y) rfl

end Sys2Proof.Machine

/-! SUPPORT. The index register and memory (`44_index_memory.md`): the words of format `X` as the spec writes them, what
a write of `I` and a store of bytes at `I` leave in the state, and the decimal digits of a byte. -/

namespace Sys2Proof

/-- The encoder's format `X` is the spec's `op | x<<8` (R71). -/
theorem wordX_eq_x8 (op : Word) (x : Reg) : wordX op x = op ||| x8 x := by
  rw [wordX_eq, partX_eq_x8]

namespace Machine

/-- The spec's word of an instruction of format `X` decodes to it, once a row of the table fits it (R74). -/
theorem decode_x8 {i : Instr} {op : Word} {x : Reg} (hfit : Laws.RowFits.Statement i) (henc : encode i = wordX op x) :
    decode (op ||| x8 x) = .ok i := by
  rw [← wordX_eq_x8, ← henc, decode_encode_of_rowFits hfit]

/-- A number within the range of a word is its value, with nothing lost in the narrowing (R10). -/
theorem toNat_ofNat_of_lt {n w : Nat} (h : n < 2 ^ w) : (BitVec.ofNat w n).toNat = n := by
  rw [BitVec.toNat_ofNat, Nat.mod_eq_of_lt h]

section
variable {i : Instr} {s : State}

/-! ## A write of `I` -/

/-- A write of `I` and `PC` leaves the value in `I` and the rest of the state as it was. -/
theorem exec_of_setI {a : Word} {n : Nat} (hexec : exec i s = .next (s.setI a).advance) (ha : a.toNat = n) :
    ∃ t, exec i s = .next t ∧ t.i.toNat = n ∧ t = { s with i := t.i, pc := s.pc + 2 } :=
  ⟨_, hexec, ha, rfl⟩

/-! ## A store of bytes at `I` -/

/-- Bytes stored from `I` on within the address space are read back in their order, every other byte is as it was, and
nothing else is written but `PC` (R60, R61). -/
theorem exec_of_writeBytes {ws : List Byte} (hexec : exec i s = .next (s.setMem (s.mem.writeBytes s.base ws)).advance)
    (hm : s.mem.wf = true) (hfits : s.i.toNat + ws.length ≤ 4096) :
    ∃ t, exec i s = .next t ∧ (∀ k (hk : k < ws.length), t.mem.read (s.i.toNat + k) = ws[k]) ∧
      (∀ a, a < s.i.toNat ∨ s.i.toNat + ws.length ≤ a → t.mem.read a = s.mem.read a) ∧
      t = { s with mem := t.mem, pc := s.pc + 2 } :=
  ⟨_, hexec, fun _ hk => Memory.read_writeBytes hk hfits hm, fun _ ha => Memory.read_writeBytes_other ha, rfl⟩

end

/-! ## `LD I, nnn`, `ADD I, Vx` and `LD F, Vx` -/

/-- Settles O13: the one write is the zero-extended address. -/
theorem loadIndexWritesTheAddress : Obligations.LoadIndexWritesTheAddress := fun nnn _ =>
  ⟨decode_encode_of_rowFits (Laws.RowFits.ldI nnn), exec_of_setI rfl (toNat_zextAddr nnn)⟩

/-- Settles O14: a sum that passes the check and five times a byte both fit 16 bits, so what is written is the number
itself; a sum that does not pass is the fault's information. -/
theorem indexArithmetic : Obligations.IndexArithmetic := by
  refine fun x s => ⟨?_, fun hsum => ?_, exec_addIVx_fault x, ?_, ?_⟩
  · exact decode_x8 (Laws.RowFits.addIVx x) rfl
  · exact exec_of_setI (exec_addIVx x hsum) (toNat_ofNat_of_lt (by omega))
  · exact decode_x8 (Laws.RowFits.ldFVx x) rfl
  · exact exec_of_setI rfl (toNat_ofNat_of_lt (by omega))

/-! ## `LD B, Vx` -/

/-- Each of the three bytes is its decimal digit (R154). -/
theorem toNat_bcdDigits (vx : Byte) :
    (bcdDigits vx)[0].toNat = vx.toNat / 100 ∧ (bcdDigits vx)[1].toNat = vx.toNat / 10 % 10 ∧
      (bcdDigits vx)[2].toNat = vx.toNat % 10 :=
  ⟨toNat_ofNat_of_lt (by omega), toNat_ofNat_of_lt (by omega), toNat_ofNat_of_lt (by omega)⟩

/-- Settles O15: the store of the three digits, or the fault of the window of three bytes. -/
theorem bcdStoresThreeDigits : Obligations.BcdStoresThreeDigits := by
  refine fun x s hm => ⟨decode_x8 (Laws.RowFits.ldBVx x) rfl, fun hwindow => ?_, fun hwindow => ?_⟩
  · obtain ⟨t, ht, hstored, hother, hframe⟩ :=
      exec_of_writeBytes (exec_ldBVx x (by omega)) hm (by rw [length_bcdDigits]; omega)
    obtain ⟨hundreds, tens, ones⟩ := toNat_bcdDigits (s.reg x)
    refine ⟨t, ht, ?_, ?_, ?_, fun a ha => hother a ?_, hframe⟩
    · exact (congrArg BitVec.toNat (hstored 0 (by simp))).trans hundreds
    · exact (congrArg BitVec.toNat (hstored 1 (by simp))).trans tens
    · exact (congrArg BitVec.toNat (hstored 2 (by simp))).trans ones
    · rw [length_bcdDigits]
      omega
  · exact exec_ldBVx_fault x (by omega)

/-! ## The block transfers -/

/-- Settles O16: the store of `V0` to `Vx`, or the fault of the window of `x + 1` bytes. -/
theorem blockStoreWritesRegistersInOrder : Obligations.BlockStoreWritesRegistersInOrder := by
  refine fun x s hm => ⟨decode_x8 (Laws.RowFits.ldMemVx x) rfl, fun hwindow => ?_, exec_ldMemVx_fault x⟩
  obtain ⟨t, ht, -, hother, hframe⟩ :=
    exec_of_writeBytes (exec_ldMemVx x hwindow) hm (by rw [length_regsUpTo]; omega)
  refine ⟨t, ht, fun j hj => read_mem_of_exec_ldMemVx hm hwindow ht hj, fun a ha => hother a ?_, hframe⟩
  rw [length_regsUpTo]
  omega

/-- Settles O17: the load of `V0` to `Vx`, or the fault of the window of `x + 1` bytes. -/
theorem blockLoadReadsBytesInOrder : Obligations.BlockLoadReadsBytesInOrder := by
  refine fun x s => ⟨decode_x8 (Laws.RowFits.ldVxMem x) rfl, fun hwindow => ?_, exec_ldVxMem_fault x⟩
  exact ⟨_, exec_ldVxMem x hwindow, getElem_loadRegs s.mem s.base x s.v, rfl⟩

/-- Settles O18: the load reads at `I + j` what the store left there, the store's `Vj`; both instructions make the same
check of the same window, so that they fault together. -/
theorem blockStoreThenLoadRestores : Obligations.BlockStoreThenLoadRestores := by
  refine fun x s hm => ⟨fun hwindow => ?_, fun hwindow => ?_⟩
  · refine ⟨_, exec_ldMemVx x hwindow, rfl, rfl, fun w => ⟨_, exec_ldVxMem x hwindow, rfl, rfl, fun j => ?_⟩⟩
    calc (loadRegs (s.mem.writeBytes s.base (regsUpTo s.v x)) s.base x w)[j]
        = if j ≤ x then (s.mem.writeBytes s.base (regsUpTo s.v x)).read (s.base + j.val) else w[j] :=
          getElem_loadRegs _ s.base x w j
      _ = if j ≤ x then s.v[j] else w[j] :=
          ite_congr rfl (Memory.read_writeBytes_regsUpTo s.v hm hwindow) fun _ => rfl
  · exact ⟨_, _, exec_ldMemVx_fault x hwindow, exec_ldVxMem_fault x hwindow, rfl, rfl, rfl, rfl, rfl, rfl⟩

end Machine

end Sys2Proof

/-! SUPPORT. The display (`45_display.md`): what a draw leaves in each pixel of the grid and in `VF`, in terms of the
sprite's bits, and a second draw after it. -/

namespace Sys2Proof.Machine

/-! ## `CLS` -/

/-- Settles O20: the cleared buffer is zero in every bit. -/
theorem clearTurnsEveryPixelOff : Obligations.ClearTurnsEveryPixelOff :=
  ⟨decode_encode_of_rowFits Laws.RowFits.cls, fun _ => ⟨_, rfl, fun _ _ => BitVec.getLsbD_zero, rfl⟩⟩

/-! ## The pixels of the grid -/

/-- The display buffer holds the pixels of the 64 x 32 grid and nothing else (R32, R165). -/
theorem State.disp_ext {s t : State} (h : ∀ row col, row < 32 → col < 64 → s.pixel row col = t.pixel row col) :
    s.disp = t.disp := by
  refine BitVec.eq_of_getLsbD_eq fun k hk => ?_
  have hpixel := h (k / 64) (k % 64) (by omega) (by omega)
  rwa [State.pixel, State.pixel, Nat.div_add_mod'] at hpixel

/-- The rows read from memory at `I` lay the sprite's bits over the grid (R167, R170). -/
theorem State.rowsBit_readBytes (s : State) (vx vy n row col : Nat) :
    rowsBit vx vy (s.mem.readBytes s.base n) row col = s.spriteBit vx vy n row col := by
  unfold rowsBit State.spriteBit
  rw [Memory.length_readBytes]
  by_cases hrow : vy ≤ row ∧ row < vy + n
  · have hk : row - vy < (s.mem.readBytes s.base n).length := by
      rw [Memory.length_readBytes]
      omega
    rw [List.getD_eq_getElem _ _ hk, Memory.getElem_readBytes]
    simp [rowBit, hrow, State.base]
  · have hout : ¬(vy ≤ row ∧ row < vy + n ∧ vx ≤ col ∧ col < vx + 8) := fun h => hrow ⟨h.1, h.2.1⟩
    rw [decide_eq_false hrow, decide_eq_false hout, Bool.false_and, Bool.false_and]

/-! ## One draw -/

/-- The encoder's word of `DRW` is the spec's `0xD000 | x<<8 | y<<4 | n` (R71, R167). -/
theorem encode_drw (x y : Reg) (n : Rows) :
    encode (.drw x y n) = 0xD000 ||| x8 x ||| y4 y ||| BitVec.ofNat 16 n.val := by
  have hn : partN n = BitVec.ofNat 16 n.val := by
    revert n
    decide
  rw [encode, wordXYN_eq, partX_eq_x8, partY_eq_y4, hn]

theorem flagByte_eq_one_iff {b : Bool} : flagByte b = 1 ↔ b = true := by cases b <;> simp [flagByte]

theorem flagByte_eq_zero_iff {b : Bool} : flagByte b = 0 ↔ b = false := by cases b <;> simp [flagByte]

section
variable (x y : Reg) (n : Rows) (s : State)

/-- The sprite's bit of `DRW Vx, Vy, n` over a pixel, at the coordinates the registers hold. -/
def State.drawBit (row col : Nat) : Bool := s.spriteBit s.v[x].toNat s.v[y].toNat n.val row col

/-- A draw flips a pixel of the grid exactly where the sprite's bit over it is 1 (R167, R169). -/
theorem pixel_effect_drw {row col : Nat} (hrow : row < 32) (hcol : col < 64) :
    (effect (.drw x y n) s).pixel row col = (s.pixel row col ^^ s.drawBit x y n row col) :=
  (drawSprite_disp hrow hcol).trans (congrArg _ (s.rowsBit_readBytes _ _ _ row col))

/-- Some pixel of the grid is 1 under a sprite bit of 1: the draw erases it (R168). -/
def State.Collides : Prop :=
  ∃ row col, row < 32 ∧ col < 64 ∧ s.pixel row col = true ∧ s.drawBit x y n row col = true

/-- The latch of a draw ends up set exactly where the draw erases a pixel (R168). -/
theorem State.drawn_latch_iff : (s.drawn x y n).2 = true ↔ s.Collides x y n := by
  unfold State.drawn State.Collides
  rw [drawSprite_latch]
  simp only [Bool.false_eq_true, false_or, State.rowsBit_readBytes]
  exact exists₂_congr fun row col => and_congr_right' (and_congr_right' and_comm)

/-- A draw leaves its collision latch in `VF` (R168). -/
theorem v_VF_effect_drw : (effect (.drw x y n) s).v[(15 : Reg)] = flagByte (s.drawn x y n).2 :=
  State.reg_setReg_same _ VF _

theorem v_VF_effect_drw_eq_one_iff : (effect (.drw x y n) s).v[(15 : Reg)] = 1 ↔ s.Collides x y n := by
  rw [v_VF_effect_drw, flagByte_eq_one_iff, s.drawn_latch_iff]

theorem v_VF_effect_drw_eq_zero_iff : (effect (.drw x y n) s).v[(15 : Reg)] = 0 ↔ ¬ s.Collides x y n := by
  rw [v_VF_effect_drw, flagByte_eq_zero_iff, ← s.drawn_latch_iff, Bool.not_eq_true]

end

/-- Settles O21: with the window in memory the draw completes, with its pixels and its flag; otherwise it raises the
window's fault. -/
theorem drawFlipsThePixelsUnderTheSprite : Obligations.DrawFlipsThePixelsUnderTheSprite := by
  refine fun x y n s => ⟨?_, fun hwindow => ?_, fun ⟨hrows, hwindow⟩ => exec_drw_fault x y n hrows hwindow⟩
  · rw [← encode_drw]
    exact decode_encode_of_rowFits (Laws.RowFits.drw x y n)
  · refine ⟨effect (.drw x y n) s, exec_drw x y n hwindow, fun row col => pixel_effect_drw x y n s, ?_, ?_⟩
    · rw [v_VF_effect_drw]
      exact flagByte_zero_or_one _
    · rw [v_VF_effect_drw]
      rfl

/-- Settles O22: `VF` is 1 after a draw that collides, and 0 after one that does not. -/
theorem collisionFlagIsAnErasedPixel : Obligations.CollisionFlagIsAnErasedPixel := by
  refine fun x y n s hwindow => ⟨_, exec_drw x y n hwindow, (v_VF_effect_drw_eq_one_iff x y n s).2,
    fun hnone => (v_VF_effect_drw_eq_zero_iff x y n s).2 ?_⟩
  rintro ⟨row, col, hrow, hcol, hpixel, hbit⟩
  exact absurd hbit (Bool.eq_false_iff.1 (hnone row col hrow hcol hpixel))

/-! ## A second draw -/

section
variable {x y : Reg} {n : Rows} {s : State}

/-- A draw whose coordinates are not in `VF` leaves the sprite and its place as they were. -/
theorem drawBit_effect_drw (hx : x ≠ 15) (hy : y ≠ 15) (row col : Nat) :
    (effect (.drw x y n) s).drawBit x y n row col = s.drawBit x y n row col := by
  have hreg {z : Reg} (hz : z ≠ 15) : (effect (.drw x y n) s).v[z] = s.v[z] := State.reg_setReg_other _ VF z _ hz
  unfold State.drawBit
  rw [hreg hx, hreg hy]
  rfl

/-- Each pixel of the grid is flipped twice or not at all (E5). -/
theorem disp_effect_drw_twice (hx : x ≠ 15) (hy : y ≠ 15) :
    (effect (.drw x y n) (effect (.drw x y n) s)).disp = s.disp := by
  refine State.disp_ext fun row col hrow hcol => ?_
  rw [pixel_effect_drw _ _ _ _ hrow hcol, pixel_effect_drw _ _ _ _ hrow hcol, drawBit_effect_drw hx hy, Bool.xor_assoc,
    Bool.xor_self, Bool.xor_false]

/-- After a draw that erased nothing, every sprite bit of 1 in the grid lies over a pixel the draw turned on. -/
theorem collides_effect_drw_iff (hx : x ≠ 15) (hy : y ≠ 15) (hnone : ¬ s.Collides x y n) :
    (effect (.drw x y n) s).Collides x y n ↔
      ∃ row col, row < 32 ∧ col < 64 ∧ s.drawBit x y n row col = true := by
  refine exists₂_congr fun row col => and_congr_right fun hrow => and_congr_right fun hcol => ?_
  rw [drawBit_effect_drw hx hy, pixel_effect_drw x y n s hrow hcol, and_iff_right_iff_imp]
  intro hbit
  have hpixel : s.pixel row col = false := Bool.eq_false_iff.2 fun h => hnone ⟨row, col, hrow, hcol, h, hbit⟩
  rw [hpixel, hbit, Bool.false_xor]

end

/-- Settles O23: the first draw leaves `I` and the sprite, so the second makes the same check and the same flips. -/
theorem drawingTwiceRestoresTheDisplay : Obligations.DrawingTwiceRestoresTheDisplay := by
  refine fun x y n s hx hy hwindow => ⟨_, _, exec_drw x y n hwindow, exec_drw x y n hwindow, disp_effect_drw_twice hx hy,
    fun hVF => ?_⟩
  have hnone := (v_VF_effect_drw_eq_zero_iff x y n s).1 hVF
  exact (v_VF_effect_drw_eq_one_iff x y n _).trans (collides_effect_drw_iff hx hy hnone)

end Sys2Proof.Machine

/-! SUPPORT. The keypad (`46_keypad.md`): what the key load answers with a key event and without one, and the tick that
ends in `AwaitingKey`. -/

namespace Sys2Proof.Machine

/-! ## `SKP` and `SKNP` -/

/-- Settles O24: a key index within 15 passes the check and the skip tests its level; a larger one is the fault's
information. -/
theorem keySkipsTestTheSampledLevel : Obligations.KeySkipsTestTheSampledLevel := by
  refine fun x s => ⟨?_, ?_, fun hkey => ⟨?_, ?_⟩, fun hkey => ⟨?_, ?_⟩⟩
  · exact decode_x8 (Laws.RowFits.skp x) rfl
  · exact decode_x8 (Laws.RowFits.sknp x) rfl
  · exact exec_of_skipIf (keyFault_none hkey) rfl Iff.rfl
  · rw [← ite_not]
    exact exec_of_skipIf (keyFault_none hkey) rfl Bool.not_iff_not
  · exact (exec_skp_fault x hkey).trans (congrArg _ (State.raise_of_info rfl))
  · exact (exec_sknp_fault x hkey).trans (congrArg _ (State.raise_of_info rfl))

/-! ## `LD Vx, K` -/

section
variable {s : State}

/-- Without a key event the key load writes `RS` only (R178). -/
theorem exec_ldVxK_of_none (x : Reg) (hevent : s.keyEvent = none) :
    exec (.ldVxK x) s = .next (s.setRs .awaitingKey) := by
  rw [exec, execLdVxK, hevent]

/-- With a key event the key load takes the key's index, runs on and advances (R178). -/
theorem exec_ldVxK_of_some (x : Reg) {k : Key} (hevent : s.keyEvent = some k) :
    exec (.ldVxK x) s = .next ((s.setReg x (keyByte k)).setRs .running).advance := by
  rw [exec, execLdVxK, hevent]

end

/-- Settles O25: each clause is one branch of the key load, and what it writes is the key's own byte. -/
theorem keyLoadTakesTheEventOrWaits : Obligations.KeyLoadTakesTheEventOrWaits := by
  refine fun x s => ⟨decode_x8 (Laws.RowFits.ldVxK x) rfl, fun k hevent => ?_, exec_ldVxK_of_none x⟩
  have hreg : ((s.setReg x (keyByte k)).setRs .running).advance.v[x] = keyByte k := s.reg_setReg_same x (keyByte k)
  refine ⟨_, exec_ldVxK_of_some x hevent, ?_, ?_⟩
  · rw [hreg, toNat_keyByte]
  · rw [hreg]
    rfl

/-! ## The tick of a key load -/

/-- A tick whose first slot leaves the core not running ends there, however many slots it has: no later slot runs and the
timers do not count (R90, R99). -/
theorem step_of_exec_not_running {i : Instr} {s t : State} (hr : s.rs ≠ .halted) (hipt : 1 ≤ s.ipt)
    (heven : s.pc.toNat % 2 = 0) (hpc : s.pc.toNat ≤ 0xFFE) (hdec : decode (s.mem.fetch16 s.pc.toNat) = .ok i)
    (hexec : exec i s.sampleKeys = .next t) (hstop : t.rs ≠ .running) : step s = .next t := by
  have hfetch : fetchFault s.sampleKeys = none := fetchFault_of_fetchable heven hpc
  have hslot : instrStep s.sampleKeys = .next t := (instrStep_of_decode hfetch hdec).trans hexec
  have hslots : slots s.ipt s.sampleKeys = .next t := by
    obtain ⟨n, hn⟩ := Nat.exists_eq_add_of_le' hipt
    rw [hn, slots_succ n hslot, moreSlots_of_not_running n hstop]
  rw [step_of_slots hr hslots, endTick_of_not_running hstop]

/-- Settles O26: the key load waits, so the tick ends after its first slot with the sample taken. -/
theorem tickFreezesTheCoreWithoutAKeyEvent : Obligations.TickFreezesTheCoreWithoutAKeyEvent := by
  intro x s hr hipt heven hpc hdec hevent
  have hexec := exec_ldVxK_of_none (s := s.sampleKeys) x hevent
  exact ⟨_, step_of_exec_not_running hr hipt heven hpc hdec hexec (by simp), rfl,
    congrArg (State.withKeyEvent · (s.sampleKeys.setRs .awaitingKey)) hevent⟩

/-- Settles O27: the key load leaves the core running, so the tick ends with `TimerStep`, which writes the timers only. -/
theorem tickWithTheKeyEventRunsOn : Obligations.TickWithTheKeyEventRunsOn := by
  intro x k s hr hipt heven hpc hdec hevent
  have hexec := exec_ldVxK_of_some (s := s.sampleKeys) x hevent
  have hreg : (s.sampleKeys.setReg x (keyByte k)).v[x].toNat = k.val :=
    (congrArg BitVec.toNat (s.sampleKeys.reg_setReg_same x (keyByte k))).trans (toNat_keyByte k)
  exact ⟨_, step_of_exec_running hr hipt heven hpc hdec hexec rfl, hreg, rfl, rfl, State.toNat_timerStep_dt _,
    State.toNat_timerStep_st _, rfl, rfl⟩

end Sys2Proof.Machine

/-! SUPPORT. The decoder inverts the encoder on every instruction (`30_encoding.md` sections 1 to 3). -/

namespace Sys2Proof

/-! ## The word -/

/-- The word of every instruction fits the row of its own form (R76). -/
theorem Laws.RowFits.statement (i : Instr) : Statement i := by
  cases i with
  | cls => exact cls
  | ret => exact ret
  | jp nnn => exact jp nnn
  | call nnn => exact call nnn
  | seImm x kk => exact seImm x kk
  | sneImm x kk => exact sneImm x kk
  | seReg x y => exact seReg x y
  | ldImm x kk => exact ldImm x kk
  | addImm x kk => exact addImm x kk
  | ldReg x y => exact ldReg x y
  | orReg x y => exact orReg x y
  | andReg x y => exact andReg x y
  | xorReg x y => exact xorReg x y
  | addReg x y => exact addReg x y
  | subReg x y => exact subReg x y
  | shr x => exact shr x
  | subnReg x y => exact subnReg x y
  | shl x => exact shl x
  | sneReg x y => exact sneReg x y
  | ldI nnn => exact ldI nnn
  | jpV0 nnn => exact jpV0 nnn
  | rnd x kk => exact rnd x kk
  | drw x y n => exact drw x y n
  | skp x => exact skp x
  | sknp x => exact sknp x
  | ldVxDt x => exact ldVxDt x
  | ldVxK x => exact ldVxK x
  | ldDtVx x => exact ldDtVx x
  | ldStVx x => exact ldStVx x
  | addIVx x => exact addIVx x
  | ldFVx x => exact ldFVx x
  | ldBVx x => exact ldBVx x
  | ldMemVx x => exact ldMemVx x
  | ldVxMem x => exact ldVxMem x

/-- The encoder's word of an instruction decodes to it, whatever its operands (R74). -/
@[simp] theorem decode_encode (i : Instr) : decode (encode i) = .ok i :=
  Machine.decode_encode_of_rowFits (Laws.RowFits.statement i)

/-! ## The bytes -/

/-- The two bytes of a word, the high one first, are the word again (R51, R70). -/
theorem wordOfBytes_halves (w : Word) : wordOfBytes (w.extractLsb' 8 8) (w.extractLsb' 0 8) = w :=
  BitVec.extractLsb'_append_extractLsb' (w := 8) (len := 8)

/-- The encoder's bytes decode to the instruction with no byte left (R70). -/
theorem decodeBytes_encodeBytes (i : Instr) : decodeBytes (encodeBytes i) = .ok (i, []) := by
  rw [encodeBytes, decodeBytes_pair, wordOfBytes_halves, decode_encode]
  rfl

/-- Settles O4: the word fits its own row, which reads every operand back, and the bytes are the word's halves. -/
theorem decodeOfEncodeIsTheInstruction : Obligations.DecodeOfEncodeIsTheInstruction := fun i =>
  ⟨i.wellFormed_eq_true, decode_encode i, decodeBytes_encodeBytes i⟩

/-- Settles O1: each legal word is the encoder's word of its instruction, `81FE` but for the `y` that `SHL` ignores, and
no row fits the other four. -/
theorem sampleWordsDecodeAsTheTableSays : Obligations.SampleWordsDecodeAsTheTableSays :=
  ⟨decode_encode .cls, decode_encode .ret, decode_encode (.jp 0xFFF), decode_encode (.seReg 1 2),
    decode_encode (.ldImm 10 0x42), decode_shr 1 2, decode_shl 1 15, decode_encode (.ldI 0x300),
    decode_encode (.rnd 0 0xFF), decode_encode (.drw 0 1 5), decode_encode (.sknp 1), decode_encode (.ldVxMem 15),
    decode_of_no_row (by decide), decode_of_no_row (by decide), decode_of_no_row (by decide),
    decode_of_no_row (by decide)⟩

end Sys2Proof

/-! SUPPORT. A return after its call (`90_conflicts.md` C1): what the pop sees of the push. -/

namespace Sys2Proof.Machine

/-- The entry a pop reads depends on the stack and its pointer only (R25). -/
theorem State.top_congr {s t : State} (hsp : s.sp = t.sp) (hstack : s.stack = t.stack) : s.top = t.top := by
  simp only [State.top, hsp, hstack]

/-- After a push the top entry is the one pushed (R25). -/
theorem State.top_push (s : State) (a : Word) (hsp : s.sp.val < 16) : (s.push a).top = a := by
  have hcount := s.push_sp_val a hsp
  have hentry := s.push_stack a hsp ⟨(s.push a).sp.val - 1, by omega⟩
  exact hentry.trans (if_pos (by simp only; omega))

/-- Settles O9: the state returned from has an entry, the return address on top, and one entry more than before the
call. -/
theorem retReturnsAfterItsCall : Obligations.RetReturnsAfterItsCall := by
  intro nnn s t u hroom hcall hsp hstack
  obtain rfl := Host.Outcome.next.inj ((exec_call nnn hroom).symm.trans hcall)
  have hcount : u.sp.val = s.sp.val + 1 := (congrArg Fin.val hsp).trans (s.push_sp_val (s.pc + 2) hroom)
  have htop : u.top = s.pc + 2 := (State.top_congr hsp hstack).trans (s.top_push (s.pc + 2) hroom)
  have hdrop : u.drop.sp = s.sp := Fin.ext (by rw [u.drop_sp_val]; omega)
  exact ⟨_, exec_ret (by omega), htop, hdrop, rfl⟩

end Sys2Proof.Machine

/-! SUPPORT. The timers and the random byte (`47_timers_random.md`). -/

namespace Sys2Proof.Machine

/-- No instruction but `RND` consumes a draw, whether it completes or faults (R189). -/
theorem exec_draws {i : Instr} {s t : State} (hRnd : ∀ x kk, i ≠ .rnd x kk) (h : exec i s = .next t) :
    t.rndInputs = s.rndInputs ∧ t.draws = s.draws := by
  obtain ⟨f, -, rfl⟩ | ⟨-, rfl⟩ := exec_next_cases h
  · exact ⟨rfl, rfl⟩
  · exact effect_draws s hRnd

/-- A byte masked by `kk` has no bit outside `kk` (R189). -/
theorem masked_and_not_mask (b kk : Byte) : (b &&& kk) &&& ~~~kk = 0 := by
  rw [BitVec.and_assoc, BitVec.and_not_self]
  exact BitVec.and_zero

/-- Settles O28: each of the four writes its destination and advances, and only `RND` draws. -/
theorem timerMovesAndMaskedRandomByte : Obligations.TimerMovesAndMaskedRandomByte := by
  refine fun x kk s => ⟨⟨?_, rfl⟩, ⟨?_, rfl⟩, ⟨?_, rfl⟩, ⟨?_, rfl, ?_, fun _ _ => nextRnd_listed⟩,
    fun _ _ => exec_draws⟩
  · exact decode_x8 (Laws.RowFits.ldVxDt x) rfl
  · exact decode_x8 (Laws.RowFits.ldDtVx x) rfl
  · exact decode_x8 (Laws.RowFits.ldStVx x) rfl
  · exact decode_x8_kk (Laws.RowFits.rnd x kk) rfl
  · exact masked_and_not_mask s.nextRnd kk

end Sys2Proof.Machine

/-! SUPPORT. Which fault a check raises, and under which condition (`60_exceptions.md` R201, R224). -/

namespace Sys2Proof.Machine

section
variable {f : Fault}

theorem windowFault_eq_some {base len : Nat} :
    windowFault base len = some f ↔ (1 ≤ len ∧ 0xFFF < base + len - 1) ∧ f = .dataAddressError 0x1000 := by
  simp [windowFault, eq_comm]

theorem indexFault_eq_some {sum : Nat} : indexFault sum = some f ↔ 0xFFF < sum ∧ f = .indexOutOfRange sum := by
  simp [indexFault, eq_comm]

theorem keyFault_eq_some {vx : Byte} : keyFault vx = some f ↔ 15 < vx.toNat ∧ f = .keyIndexError vx := by
  simp [keyFault, eq_comm]

theorem pushFault_eq_some {s : State} : pushFault s = some f ↔ s.sp.val = 16 ∧ f = .stackOverflow := by
  simp [pushFault, eq_comm]

theorem popFault_eq_some {s : State} : popFault s = some f ↔ s.sp.val = 0 ∧ f = .stackUnderflow := by
  simp [popFault, eq_comm]

end

/-- Settles O37: only a fault halts the core, its check is one of the nine's, and raising it writes `RS` and the fault's
record. -/
theorem faultsArePreciseAndListed : Obligations.FaultsArePreciseAndListed := by
  intro i s t hrun h hhalted
  obtain ⟨f, hcheck, rfl⟩ | ⟨-, rfl⟩ := exec_next_cases h
  · refine ⟨rfl, ?_⟩
    cases i with
    | ret =>
      obtain ⟨hsp, rfl⟩ := popFault_eq_some.1 hcheck
      exact ⟨hsp, rfl, rfl⟩
    | call nnn =>
      obtain ⟨hsp, rfl⟩ := pushFault_eq_some.1 hcheck
      exact ⟨hsp, rfl, rfl⟩
    | drw x y n =>
      obtain ⟨⟨hrows, hwindow⟩, rfl⟩ := windowFault_eq_some.1 hcheck
      exact ⟨hrows, hwindow, rfl, rfl⟩
    | ldBVx | ldMemVx | ldVxMem =>
      obtain ⟨⟨-, hwindow⟩, rfl⟩ := windowFault_eq_some.1 hcheck
      exact ⟨hwindow, rfl, rfl⟩
    | addIVx x =>
      obtain ⟨hsum, rfl⟩ := indexFault_eq_some.1 hcheck
      exact ⟨hsum, rfl, rfl⟩
    | skp x | sknp x =>
      obtain ⟨hkey, rfl⟩ := keyFault_eq_some.1 hcheck
      have hinfo : (BitVec.ofNat 16 (s.reg x).toNat).toNat = (s.reg x).toNat := toNat_ofNat_of_lt (by omega)
      exact ⟨hkey, rfl, hinfo⟩
    | _ => nomatch hcheck
  · exact absurd hhalted (effect_rs_ne_halted hrun)

/-! ## The parity of `PC` (R204) -/

/-- The effect of an instruction that is no jump leaves an even `PC` even: it moves it by an even amount, or to a return
address, which is even. -/
theorem effect_pc_even {i : Instr} {s : State} (heven : s.pc.toNat % 2 = 0)
    (hstack : ∀ j : Fin 16, s.stack[j].toNat % 2 = 0) (hJump : ∀ nnn, i ≠ .jp nnn ∧ i ≠ .call nnn ∧ i ≠ .jpV0 nnn) :
    (effect i s).pc.toNat % 2 = 0 := by
  have hnext : (s.pc + 2).toNat % 2 = 0 := by bv_omega
  have hskip : (s.pc + 4).toNat % 2 = 0 := by bv_omega
  cases i with
  | jp nnn => exact absurd rfl (hJump nnn).1
  | call nnn => exact absurd rfl (hJump nnn).2.1
  | jpV0 nnn => exact absurd rfl (hJump nnn).2.2
  | ret => exact hstack ⟨s.sp.val - 1, by omega⟩
  | seImm | sneImm | seReg | sneReg | skp | sknp =>
    simp only [effect, State.skipIf_eq, State.setPc_pc]
    split
    · exact hskip
    · exact hnext
  | ldVxK x =>
    simp only [effect, State.loadKey_pc]
    split
    · exact heven
    · exact hnext
  | _ => exact hnext

/-- Settles O38: a fault leaves `PC`, and every effect but a jump's leaves it even. -/
theorem onlyJumpsMakeThePcOdd : Obligations.OnlyJumpsMakeThePcOdd := by
  intro i s t heven hstack h hodd
  obtain ⟨f, -, rfl⟩ | ⟨-, rfl⟩ := exec_next_cases h
  · exact absurd (heven.symm.trans hodd) (by decide)
  · by_contra hJump
    simp only [not_exists, not_or] at hJump
    exact absurd ((effect_pc_even heven hstack hJump).symm.trans hodd) (by decide)

/-! ## The step is total (R203) -/

/-- Every slot answers a next state: faults are taken. -/
theorem exists_instrStep (s : State) : ∃ t, instrStep s = .next t := by
  obtain ⟨f, -, h⟩ | ⟨-, -, h⟩ | ⟨i, -, -, h⟩ := instrStep_cases (rfl : instrStep s = _)
  · exact ⟨_, h⟩
  · exact ⟨_, h⟩
  · exact ⟨_, h.trans (exec_eq i s)⟩

theorem exists_moreSlots (k : Nat) (s : State) : ∃ t, moreSlots k s = .next t := by
  induction k generalizing s with
  | zero => exact ⟨s, rfl⟩
  | succ k ih =>
    by_cases hrun : s.rs = .running
    · obtain ⟨u, hu⟩ := exists_instrStep s
      obtain ⟨t, ht⟩ := ih u
      exact ⟨t, by rw [moreSlots_of_running _ hrun, slots_succ k hu, ht]⟩
    · exact ⟨s, moreSlots_of_not_running _ hrun⟩

theorem exists_slots (k : Nat) (s : State) : ∃ t, slots k s = .next t := by
  cases k with
  | zero => exact ⟨s, rfl⟩
  | succ k =>
    obtain ⟨u, hu⟩ := exists_instrStep s
    rw [slots_succ k hu]
    exact exists_moreSlots k u

/-- Settles O39: a halted core stays, and otherwise every slot answers a next state, so the loop and the tick do. -/
theorem everyStepAnswersANextState : Obligations.EveryStepAnswersANextState := by
  intro s
  by_cases hr : s.rs = .halted
  · exact ⟨s, step_of_halted hr⟩
  · obtain ⟨t, ht⟩ := exists_slots s.ipt s.sampleKeys
    exact ⟨endTick t, step_of_slots hr ht⟩

end Sys2Proof.Machine

/-! SUPPORT. What reset/load leaves in memory, and what it refuses (`70_reset_and_hazards.md` R241, R242). -/

namespace Sys2Proof.Machine

/-! ## The memory after reset -/

section
variable {p : ResetParams} (hp : p.wellFormed = true)
include hp

/-- The font lies below the load base, so the ROM leaves it (R241). -/
theorem read_resetMemory_font {a : Nat} (ha : a < 80) : (resetMemory p).read a = p.font.getD a 0 := by
  obtain ⟨hbase, -, hfont, -⟩ := ResetParams.wellFormed_iff.1 hp
  have hread : (Memory.writeBytes [] 0 p.font).read (0 + a) = p.font[a] :=
    Memory.read_writeBytes (by omega) (by omega) Memory.wf_nil
  rw [resetMemory, Memory.read_writeBytes_other (by omega), ← Nat.zero_add a, hread, Nat.zero_add,
    List.getD_eq_getElem]

/-- The ROM lies at the load base (R241). -/
theorem read_resetMemory_rom {j : Nat} (hj : j < p.rom.length) :
    (resetMemory p).read (p.loadBase + j) = p.rom.getD j 0 := by
  obtain ⟨hbase, hrom, hfont, -⟩ := ResetParams.wellFormed_iff.1 hp
  have hwithFont : (Memory.writeBytes [] 0 p.font).wf = true := Memory.wf_writeBytes (by omega) Memory.wf_nil
  rw [resetMemory, Memory.read_writeBytes hj (by omega) hwithFont, List.getD_eq_getElem]

/-- Every byte outside the font and the ROM is 0 (R36, decision D3). -/
theorem read_resetMemory_zero {a : Nat} (hfontEnd : 80 ≤ a) (hrom : a < p.loadBase ∨ p.loadBase + p.rom.length ≤ a) :
    (resetMemory p).read a = 0 := by
  obtain ⟨-, -, hfont, -⟩ := ResetParams.wellFormed_iff.1 hp
  rw [resetMemory, Memory.read_writeBytes_other hrom, Memory.read_writeBytes_other (by omega), Memory.read_nil,
    Memory.unlisted_above_font hfontEnd]

theorem toNat_loadBase : (BitVec.ofNat 16 p.loadBase).toNat = p.loadBase := by
  obtain ⟨hbase, -⟩ := ResetParams.wellFormed_iff.1 hp
  exact toNat_ofNat_of_lt (by omega)

end

/-- Settles O46: a legal reset answers the loaded state, whose memory is the font, the ROM and zeros. -/
theorem resetLaysOutFontAndRom : Obligations.ResetLaysOutFontAndRom := fun p hp =>
  ⟨State.loaded p, State.resetWith_eq_next_iff.2 ⟨hp, rfl⟩, toNat_loadBase hp, fun _ => read_resetMemory_font hp,
    fun _ => read_resetMemory_rom hp, fun _ => read_resetMemory_zero hp, rfl⟩

/-! ## The size of the ROM (R242, decision D24) -/

section
variable {p : ResetParams} (hbase : p.loadBase = 0x200 ∨ p.loadBase = 0x600) (hfont : p.font.length = 80)
  (hipt : 1 ≤ p.ipt)
include hbase hfont hipt

/-- With the other parameters legal, a ROM that reaches past the address space is refused. -/
theorem State.resetWith_of_rom_too_large (hrom : 4096 < p.loadBase + p.rom.length) :
    State.resetWith p = .refused .romTooLarge := by
  have hlegal : (p.baseOk && p.fontOk && p.iptOk) = true := by
    simp [ResetParams.baseOk, ResetParams.fontOk, ResetParams.iptOk, hbase, hfont, hipt]
  have hlarge : p.romFits = false := decide_eq_false (by omega)
  simp [State.resetWith, hlegal, hlarge]

/-- With the other parameters legal, a ROM within the address space is accepted. -/
theorem State.exists_resetWith_of_rom_fits (hrom : p.loadBase + p.rom.length ≤ 4096) :
    ∃ t, State.resetWith p = .next t :=
  ⟨State.loaded p, State.resetWith_eq_next_iff.2
    ⟨ResetParams.wellFormed_iff.2 ⟨hbase, by omega, hfont, hipt⟩, rfl⟩⟩

end

/-- Settles O47: at each load base the bound is where the ROM reaches the end of the address space. -/
theorem tooLargeRomIsRefused : Obligations.TooLargeRomIsRefused := by
  refine fun p hfont hipt => ⟨fun hbase hrom => ?_, fun hbase hrom => ?_, fun hbase hrom => ?_, fun hbase hrom => ?_⟩
  · exact State.resetWith_of_rom_too_large (.inl hbase) hfont hipt (by omega)
  · exact State.resetWith_of_rom_too_large (.inr hbase) hfont hipt (by omega)
  · exact State.exists_resetWith_of_rom_fits (.inl hbase) hfont hipt (by omega)
  · exact State.exists_resetWith_of_rom_fits (.inr hbase) hfont hipt (by omega)

end Sys2Proof.Machine
